-- ==== Sys2Proof/Word.lean ====
section
/-! DEFINITION. The widths of the hardware (00_scope.md R6, R8): bytes, 32-bit words, the 64-bit length, 16-bit
command words, the wide ports. No value in this hardware is signed (R8). -/

namespace Sys2Proof

/-- A byte: 8 bits (R8). -/
abbrev Byte := BitVec 8

/-- WORD = 32 bits: a state word, a message word, a working register (R6). Addition of words wraps (R13). -/
abbrev Word := BitVec 32

/-- LENW = LENFIELD = 64 bits: the Total Length Counter and the length suffix (R6). -/
abbrev DWord := BitVec 64

/-- CMDW = 16 bits: a command word (R6, R82). -/
abbrev CmdWord := BitVec 16

/-- The digest: exactly 20 bytes (R6 DIGEST_BYTES, R33). -/
abbrev Digest := Vector Byte 20

/-- A message block: exactly 64 bytes (R6 BLOCK, R41), so that `compress` cannot be given another size (R110, U4). -/
abbrev Block := Vector Byte 64

end Sys2Proof
end

