-- ==== Sys2Proof/Syntax.lean ====
section
/-! DEFINITION. The instructions: the five host commands of 30_encoding.md R84, one constructor per row of the
opcode table. -/

namespace Sys2Proof

/-- The five commands (30_encoding.md R84). RESERVED is a verdict of the decoder and not a command (R96). -/
inductive Instr where
  /-- INIT, explicit reset of the hashing state (R85, 41_buffer_commands.md R141). -/
  | init
  /-- PUSH b, append one byte to the stream; the operand is the data byte (R86, R94, 41_buffer_commands.md R142). -/
  | push (b : Byte)
  /-- FINAL, pad, compress, latch the digest, invalidate (R87, 42_finalization.md R162). -/
  | final
  /-- FINALR, the same, then restore the initial hashing state (R88, 42_finalization.md R163). -/
  | finalr
  /-- CTXLOAD, replace the hashing state by the image on `ctx_in`, which is not in the command word (R89, 43_context.md R184). -/
  | ctxload
deriving DecidableEq, Repr

end Sys2Proof
end

