-- ==== Sys2Proof/WellFormed.lean ====
section
/-! DEFINITION. Which command words and which instructions are well formed: the five rows of 30_encoding.md R84 as
a table of match and mask. A word that matches no row is reserved, by its opcode (R90) or by its operand (R91). -/

namespace Sys2Proof

/-- One row of the opcode map (30_encoding.md R84). -/
structure OpRow where
  mnemonic : String
  pattern : CmdWord
  mask : CmdWord
deriving DecidableEq, Repr

/-- The five rows of 30_encoding.md R84, in the table's order. -/
def opRows : List OpRow :=
  [⟨"INIT", 0x0100, 0xFFFF⟩, ⟨"PUSH", 0x0200, 0xFF00⟩, ⟨"FINAL", 0x0300, 0xFFFF⟩,
   ⟨"FINALR", 0x0400, 0xFFFF⟩, ⟨"CTXLOAD", 0x0500, 0xFFFF⟩]

/-- "A word matches a row when `(cmd AND mask) = match`" (R84). -/
def OpRow.matchesWord (r : OpRow) (cmd : CmdWord) : Bool := cmd &&& r.mask == r.pattern

/-- A legal command word: one that matches a row (R84); "Every word that matches no row is reserved". -/
def legalWord (cmd : CmdWord) : Bool := opRows.any (·.matchesWord cmd)

/-- A well-formed instruction. PUSH's operand may be any byte (R86, R94) and is a byte by its type, the other commands have
no operand, so every term of `Instr` is well formed; one line per constructor says so. -/
def Instr.wellFormed : Instr → Bool
  | .init => true
  | .push _ => true
  | .final => true
  | .finalr => true
  | .ctxload => true

end Sys2Proof
end

