-- ==== Sys2Proof/Decode.lean ====
section
/-! DEFINITION. The decoder (30_encoding.md R96), total on 16-bit command words and rejecting by name, then the
encoder (R84 to R89), then the host's reading of a table word. -/

namespace Sys2Proof

/-- The opcode field `cmd[15:8]` (30_encoding.md R82, R83). -/
def opField (cmd : CmdWord) : Byte := cmd.extractLsb' 8 8

/-- The operand field `cmd[7:0]` (30_encoding.md R82, R83). -/
def argField (cmd : CmdWord) : Byte := cmd.extractLsb' 0 8

/-- Why a word is reserved. -/
inductive Reserved where
  /-- op = 0x00 or op = 0x06..0xFF, with any arg (30_encoding.md R90). -/
  | opcode
  /-- op in 0x01, 0x03, 0x04, 0x05 with an arg other than 0x00 (30_encoding.md R91). -/
  | operand
deriving DecidableEq, Repr

/-- The decoder's verdict on a command word (30_encoding.md R96). -/
inductive Verdict where
  | command (i : Instr)
  | reserved (why : Reserved)
deriving DecidableEq, Repr

/-- 30_encoding.md R96: decoding, a total function on 16-bit words. -/
def decode (cmd : CmdWord) : Verdict :=
  let op := opField cmd
  let arg := argField cmd
  if op = 0x02 then .command (.push arg)
  else if op = 0x01 then (if arg = 0 then .command .init else .reserved .operand)
  else if op = 0x03 then (if arg = 0 then .command .final else .reserved .operand)
  else if op = 0x04 then (if arg = 0 then .command .finalr else .reserved .operand)
  else if op = 0x05 then (if arg = 0 then .command .ctxload else .reserved .operand)
  else .reserved .opcode

/-- The word of an instruction (30_encoding.md R85 to R89): INIT 0x0100, PUSH b the word 0x0200 + b, FINAL 0x0300, FINALR
0x0400, CTXLOAD 0x0500. -/
def encode : Instr → CmdWord
  | .init => 0x0100
  | .push b => 0x0200 + b.setWidth 16
  | .final => 0x0300
  | .finalr => 0x0400
  | .ctxload => 0x0500

/-- The row of 30_encoding.md R84 an instruction belongs to. -/
def Instr.row : Instr → OpRow
  | .init => ⟨"INIT", 0x0100, 0xFFFF⟩
  | .push _ => ⟨"PUSH", 0x0200, 0xFF00⟩
  | .final => ⟨"FINAL", 0x0300, 0xFFFF⟩
  | .finalr => ⟨"FINALR", 0x0400, 0xFFFF⟩
  | .ctxload => ⟨"CTXLOAD", 0x0500, 0xFFFF⟩

/-- The command word whose low `nbits` bits are those of `w`, every bit above them 0. A command is one 16-bit word on the
`cmd` port and lies in no memory, so there is no byte order to lay out (30_encoding.md R82, 20_memory.md R55). -/
def tableWord (nbits w : Nat) : CmdWord := BitVec.ofNat 16 (w % 2 ^ nbits)

/-- The instruction the decoder reads from a table word, none where the word is reserved. -/
def decodeTableWord (nbits w : Nat) : Option Instr :=
  match decode (tableWord nbits w) with
  | .command i => some i
  | .reserved _ => none

end Sys2Proof
end

