-- ==== Sys2Proof/Config.lean ====
section
/-! DEFINITION. The two values the spec leaves open, as constants without a body: nothing can be proved of which
value they are. Every other parameter is fixed by 00_scope.md R6. -/

namespace Sys2Proof

/-- DIGEST_RESET (00_scope.md R7; 10_state.md R37; U3): what the `digest` port carries while DVALID = 0. A free value, one
for each time the digest became unspecified (the argument numbers those times): log entries 1 and 2. -/
opaque Config.digestReset : Nat → Digest

/-- A byte of BUF at an offset that holds no value (10_state.md R23; U7). A free value; no rule of the spec ever reads one:
log entry 4. -/
opaque Config.staleByte : Nat → Byte

end Sys2Proof
end

