-- ==== Sys2Proof/Machine/State.lean ====
section
/-! DEFINITION. The architectural state of one engine (10_state.md R20), the host's input ports, the reasons a step
can stop, and the state after reset (70_reset_and_hazards.md R233). -/

namespace Sys2Proof.Machine

/-- The Hash State: five unsigned 32-bit registers, addressed as a whole (10_state.md R21). -/
@[ext]
structure HashState where
  h0 : Word
  h1 : Word
  h2 : Word
  h3 : Word
  h4 : Word
deriving DecidableEq, Repr

/-- The initialisation constants IV (70_reset_and_hazards.md R231). -/
def iv : HashState := ⟨0x67452301, 0xEFCDAB89, 0x98BADCFE, 0x10325476, 0xC3D2E1F0⟩

/-- The block buffer BUF as the (offset, byte) cells that hold a value (20_memory.md R50). In canonical form
(`Memory.wf`) the offsets rise strictly and are below 64. An unlisted offset holds no value: log entries 3 and 4. -/
abbrev Memory := List Host.Cell

/-- ERRCODE, the cause of the first fault since reset (10_state.md R31, 60_exceptions.md R201). -/
inductive ErrCode where
  /-- 0: no fault. -/
  | noFault
  /-- 1: a reserved command word (R203). -/
  | illegalCommand
  /-- 2: PUSH, FINAL or FINALR while FIN = 1 (R202). -/
  | useAfterFinal
  /-- 3: CTXLOAD of an invalid image (R205). -/
  | badContext
deriving DecidableEq, Repr

/-- What the host drives on the input ports (30_encoding.md R80) during one step. -/
@[ext]
structure Pins where
  /-- The reset pin (70_reset_and_hazards.md R230). -/
  rst : Bool
  /-- The host presents a command word on `cmd`. -/
  cmdValid : Bool
  /-- The command word, ignored when `cmdValid` is 0 (30_encoding.md R81). -/
  cmd : CmdWord
  /-- The context image, read only when a CTXLOAD is accepted (43_context.md R184). -/
  ctxIn : BitVec 768
deriving DecidableEq, Repr

/-- The state of one engine instance and of the input ports its host drives. -/
@[ext]
structure State where
  /-- H, the Hash State (10_state.md R21). -/
  h : HashState
  /-- N, the fill count of the Pending Buffer, 6 bits (10_state.md R23, 00_scope.md R17). -/
  n : BitVec 6
  /-- BUF; the Pending Buffer is its bytes at offsets 0..N-1 (10_state.md R23). -/
  buf : Memory
  /-- LEN, the Total Length Counter (10_state.md R25). -/
  len : DWord
  /-- FIN, the finalized flag (10_state.md R29). -/
  fin : Bool
  /-- ERR, the sticky fault flag (10_state.md R30). -/
  err : Bool
  /-- ERRCODE (10_state.md R31). -/
  errCode : ErrCode
  /-- DIGEST with DVALID as its tag (10_state.md R32, R33, R37): `none` exactly when DVALID = 0. Log entry 1. -/
  digest : Option Digest
  /-- The MODEL's own counter, not the spec's: how often the digest became unspecified. Log entry 2. -/
  digestDraw : Nat
  /-- The input ports in this step. The host's, not the engine's. Log entry 5. -/
  pins : Pins
  /-- The input ports in the steps to come: the host's command sequence (70_reset_and_hazards.md R245). Log entry 5. -/
  script : List Pins
deriving DecidableEq, Repr

/-- The reasons a step stops the machine with a fault: none. Every fault of the spec is a state of the machine (ERR = 1,
60_exceptions.md R204, R207), which `State.raiseFault` enters by a next state, so nothing raises a stop: log entry 9. -/
inductive Fault where
deriving DecidableEq, Repr

/-- The reasons a step has no meaning. -/
inductive Refusal where
  /-- An instruction without a meaning in this model. Safe. No arm of `exec` raises it: every instruction has its meaning. -/
  | notModelled (mnemonic : String)
deriving DecidableEq, Repr

/-- The input ports before the host has driven them: no reset asserted, no command, all bits 0. DESIGN CHOICE, log entry 5. The
zero image is written by its bound, so that evaluating it never computes 2^768. -/
def Pins.idle : Pins :=
  { rst := false, cmdValid := false, cmd := 0, ctxIn := BitVec.ofNatLT 0 (Nat.two_pow_pos 768) }

/-- The state after `rst` (70_reset_and_hazards.md R233, 10_state.md R36). DIGEST is unspecified there and held as no value
(R7, R37). -/
def State.reset : State :=
  { h := iv, n := 0, buf := [], len := 0, fin := false, err := false, errCode := .noFault,
    digest := none, digestDraw := 0, pins := Pins.idle, script := [] }

end Sys2Proof.Machine
end

