-- ==== Sys2Proof/Machine/Words.lean ====
section
/-! DEFINITION. The word primitives of 00_scope.md R10 and the byte order and packing rules of 20_memory.md R52, R53
and 30_encoding.md R98. -/

namespace Sys2Proof.Machine

/-- `add32` (00_scope.md R10, R13): addition modulo 2^32, no flag. -/
def add32 (a b : Word) : Word := a + b

/-- `rol32(x, n)` (00_scope.md R10, R14): left rotation; `rol32(x, 0) = x`. -/
def rol32 (x : Word) (n : Nat) : Word := (x <<< n) ||| (x >>> (32 - n))

/-- `add64` (00_scope.md R10, R15): addition modulo 2^64, no flag. -/
def add64 (a b : DWord) : DWord := a + b

/-- `shl64(v, n)` (00_scope.md R10, R16): v * 2^n modulo 2^64. -/
def shl64 (v : DWord) (n : Nat) : DWord := v <<< n

/-- `le32(b0, b1, b2, b3)` (00_scope.md R10, 20_memory.md R52): four bytes to a word, the byte at the lower offset the less
significant. -/
def le32 (b0 b1 b2 b3 : Byte) : Word := b3 ++ b2 ++ b1 ++ b0

/-- Byte k of a word: `w[8k+7 : 8k]`. -/
def byteOf (w : Word) (k : Nat) : Byte := w.extractLsb' (8 * k) 8

/-- `bytes32(w)` (00_scope.md R10): a word to four bytes, little-endian. -/
def bytes32 (w : Word) : List Byte := [byteOf w 0, byteOf w 1, byteOf w 2, byteOf w 3]

/-- Byte k of a 64-bit value: `v[8k+7 : 8k]`. -/
def byteOf64 (v : DWord) (k : Nat) : Byte := v.extractLsb' (8 * k) 8

/-- `bytes64(v)` (00_scope.md R10): a 64-bit value to eight bytes, little-endian. -/
def bytes64 (v : DWord) : List Byte :=
  [byteOf64 v 0, byteOf64 v 1, byteOf64 v 2, byteOf64 v 3, byteOf64 v 4, byteOf64 v 5, byteOf64 v 6, byteOf64 v 7]

/-- H[i] (00_scope.md R11, 10_state.md R21). -/
def HashState.word (h : HashState) : Fin 5 → Word
  | 0 => h.h0
  | 1 => h.h1
  | 2 => h.h2
  | 3 => h.h3
  | 4 => h.h4

/-- The five words in the order h0, h1, h2, h3, h4. -/
def HashState.words (h : HashState) : List Word := [h.h0, h.h1, h.h2, h.h3, h.h4]

/-- A word array on a wide port as one unsigned integer: word w on bits `[32w+31 : 32w]` (30_encoding.md R98). -/
def packWords : List Word → Nat
  | [] => 0
  | w :: ws => w.toNat + 2 ^ 32 * packWords ws

/-- A byte sequence on a wide port as one unsigned integer: byte i on bits `[8i+7 : 8i]` (30_encoding.md R98). -/
def packBytes : List Byte → Nat
  | [] => 0
  | b :: bs => b.toNat + 2 ^ 8 * packBytes bs

/-- Word w of a wide port, `v[32w+31 : 32w]` (30_encoding.md R98, R99). -/
def portWord (width : Nat) (v : BitVec width) (w : Nat) : Word := v.extractLsb' (32 * w) 32

/-- Byte i of a wide port, `v[8i+7 : 8i]` (30_encoding.md R98). -/
def portByte (width : Nat) (v : BitVec width) (i : Nat) : Byte := v.extractLsb' (8 * i) 8

end Sys2Proof.Machine
end

