-- ==== Sys2Proof/Machine/Compression.lean ====
section
/-! DEFINITION. The Compression Engine (40_compression.md R110 to R129): message words, the five Boolean functions, the
tables, one step of a line, the two lines, the final combination. -/

namespace Sys2Proof.Machine

/-- Which Boolean function a round uses (40_compression.md R112, R113). -/
inductive BoolFn where
  | f1
  | f2
  | f3
  | f4
  | f5
deriving DecidableEq, Repr

/-- The five Boolean functions, bitwise on words (40_compression.md R112). -/
def BoolFn.eval (f : BoolFn) (x y z : Word) : Word :=
  match f with
  | .f1 => x ^^^ y ^^^ z
  | .f2 => (x &&& y) ||| (~~~x &&& z)
  | .f3 => (x ||| ~~~y) ^^^ z
  | .f4 => (x &&& z) ||| (y &&& ~~~z)
  | .f5 => x ^^^ (y ||| ~~~z)

/-- Message word X[i] of a block (40_compression.md R111, 20_memory.md R52). -/
def msgWord (block : Block) (i : Fin 16) : Word :=
  le32 block[4 * i.val] block[4 * i.val + 1] block[4 * i.val + 2] block[4 * i.val + 3]

/-- What steers one step of a line: function, additive constant, message-word index, rotation amount. -/
structure StepRow where
  f : BoolFn
  k : Word
  r : Fin 16
  s : Nat
deriving DecidableEq, Repr

/-- The 16 steps of one round of a line (40_compression.md R113 to R119). -/
def roundRows (f : BoolFn) (k : Word) (r : List (Fin 16)) (s : List Nat) : List StepRow :=
  List.zipWith (fun ri si => ⟨f, k, ri, si⟩) r s

/-- r(j), the left line's message-word selection, round by round (40_compression.md R116). -/
def leftSelect : List (List (Fin 16)) :=
  [[0, 1, 2, 3, 4, 5, 6, 7, 8, 9, 10, 11, 12, 13, 14, 15],
   [7, 4, 13, 1, 10, 6, 15, 3, 12, 0, 9, 5, 2, 14, 11, 8],
   [3, 10, 14, 4, 9, 15, 8, 1, 2, 7, 0, 6, 13, 11, 5, 12],
   [1, 9, 11, 10, 0, 8, 12, 4, 13, 3, 7, 15, 14, 5, 6, 2],
   [4, 0, 5, 9, 7, 12, 2, 10, 14, 1, 3, 8, 11, 6, 15, 13]]

/-- r'(j), the right line's message-word selection (40_compression.md R117). -/
def rightSelect : List (List (Fin 16)) :=
  [[5, 14, 7, 0, 9, 2, 11, 4, 13, 6, 15, 8, 1, 10, 3, 12],
   [6, 11, 3, 7, 0, 13, 5, 10, 14, 15, 8, 12, 4, 9, 1, 2],
   [15, 5, 1, 3, 7, 14, 6, 9, 11, 8, 12, 2, 10, 0, 4, 13],
   [8, 6, 4, 1, 3, 11, 15, 0, 5, 12, 2, 13, 9, 7, 10, 14],
   [12, 15, 10, 4, 1, 5, 8, 7, 6, 2, 13, 14, 0, 3, 9, 11]]

/-- s(j), the left line's rotation amounts (40_compression.md R118). -/
def leftRotate : List (List Nat) :=
  [[11, 14, 15, 12, 5, 8, 7, 9, 11, 13, 14, 15, 6, 7, 9, 8],
   [7, 6, 8, 13, 11, 9, 7, 15, 7, 12, 15, 9, 11, 7, 13, 12],
   [11, 13, 6, 7, 14, 9, 13, 15, 14, 8, 13, 6, 5, 12, 7, 5],
   [11, 12, 14, 15, 14, 15, 9, 8, 9, 14, 5, 6, 8, 6, 5, 12],
   [9, 15, 5, 11, 6, 8, 13, 12, 5, 12, 13, 14, 11, 8, 5, 6]]

/-- s'(j), the right line's rotation amounts (40_compression.md R119). -/
def rightRotate : List (List Nat) :=
  [[8, 9, 9, 11, 13, 15, 15, 5, 7, 7, 8, 11, 14, 14, 12, 6],
   [9, 13, 15, 7, 12, 8, 9, 11, 7, 7, 12, 7, 6, 15, 13, 11],
   [9, 7, 15, 11, 8, 6, 6, 14, 12, 13, 5, 14, 13, 13, 7, 5],
   [15, 5, 8, 11, 14, 14, 6, 14, 6, 9, 12, 9, 12, 5, 15, 8],
   [8, 5, 12, 9, 12, 5, 14, 6, 8, 13, 6, 5, 15, 13, 11, 11]]

/-- The left line's function and constant K(q), round by round (40_compression.md R113, R114). -/
def leftRounds : List (BoolFn × Word) :=
  [(.f1, 0x00000000), (.f2, 0x5A827999), (.f3, 0x6ED9EBA1), (.f4, 0x8F1BBCDC), (.f5, 0xA953FD4E)]

/-- The right line's function and constant K'(q), round by round (40_compression.md R113, R115). -/
def rightRounds : List (BoolFn × Word) :=
  [(.f5, 0x50A28BE6), (.f4, 0x5C4DD124), (.f3, 0x6D703EF3), (.f2, 0x7A6D76E9), (.f1, 0x00000000)]

/-- The 80 steps of a line from its five rounds. -/
def lineRows : List (BoolFn × Word) → List (List (Fin 16)) → List (List Nat) → List StepRow
  | (f, k) :: fks, r :: rs, s :: ss => roundRows f k r s ++ lineRows fks rs ss
  | _, _, _ => []

/-- The left line's 80 steps, j = 0..79 (40_compression.md R129). -/
def leftRows : List StepRow := lineRows leftRounds leftSelect leftRotate

/-- The right line's 80 steps, j = 0..79 (40_compression.md R129). -/
def rightRows : List StepRow := lineRows rightRounds rightSelect rightRotate

/-- The five working registers A, B, C, D, E of a line (10_state.md R26). -/
structure Line where
  a : Word
  b : Word
  c : Word
  d : Word
  e : Word
deriving DecidableEq, Repr

/-- Both lines start from the incoming chaining value (40_compression.md R120). -/
def loadLine (h : HashState) : Line := ⟨h.h0, h.h1, h.h2, h.h3, h.h4⟩

/-- The temporary T of a step (40_compression.md R121, R122). -/
def stepTemp (row : StepRow) (x : Word) (g : Line) : Word :=
  add32 (rol32 (add32 (add32 (add32 g.a (row.f.eval g.b g.c g.d)) x) row.k) row.s) g.e

/-- One step of a line: (A, B, C, D, E) <- (E, T, B, rol32(C, 10), D) (40_compression.md R121, R122). -/
def stepLine (row : StepRow) (x : Word) (g : Line) : Line :=
  ⟨g.e, stepTemp row x g, g.b, rol32 g.c 10, g.d⟩

/-- A line's steps in order; it reads the block and its own registers only (40_compression.md R125). -/
def runLine (block : Block) : List StepRow → Line → Line
  | [], g => g
  | row :: rows, g => runLine block rows (stepLine row (msgWord block row.r) g)

/-- The final combination (40_compression.md R123). -/
def combine (h : HashState) (l r : Line) : HashState :=
  { h0 := add32 (add32 h.h1 l.c) r.d
    h1 := add32 (add32 h.h2 l.d) r.e
    h2 := add32 (add32 h.h3 l.e) r.a
    h3 := add32 (add32 h.h4 l.a) r.b
    h4 := add32 (add32 h.h0 l.b) r.c }

/-- `compress(h, block)` (40_compression.md R110, R124). Irreducible so that no proof about the machine unfolds 160 steps by
accident; `unfold compress` opens it. -/
@[irreducible] def compress (h : HashState) (block : Block) : HashState :=
  combine h (runLine block leftRows (loadLine h)) (runLine block rightRows (loadLine h))

/-- Block k, k = 0, 1, .., of a byte sequence: its bytes 64k .. 64k+63. Used only where the sequence has them all. -/
def blockAt (s : List Byte) (k : Nat) : Block := Vector.ofFn fun i : Fin 64 => s.getD (64 * k + i.val) 0

end Sys2Proof.Machine
end

