-- ==== Sys2Proof/Machine/Flags.lean ====
section
/-! DEFINITION. The flags, their codes, the status byte and the lifecycle state (10_state.md R29 to R32, R40, R42;
30_encoding.md R97). No arithmetic sets any flag (R42). -/

namespace Sys2Proof.Machine

/-- DVALID (10_state.md R32): the digest latch holds a digest. It is the tag of the optional latch (R37). -/
def State.dvalid (s : State) : Bool := s.digest.isSome

/-- ERRCODE as its 2-bit code (10_state.md R31, 60_exceptions.md R201). -/
def ErrCode.code : ErrCode → BitVec 2
  | .noFault => 0
  | .illegalCommand => 1
  | .useAfterFinal => 2
  | .badContext => 3

/-- One flag as a bit. -/
def flagBit (b : Bool) : BitVec 1 := BitVec.ofBool b

/-- `status[7:0]` (30_encoding.md R97): [0] FIN, [1] ERR, [2] DVALID, [3] 0, [5:4] ERRCODE, [7:6] 0. -/
def State.status (s : State) : BitVec 8 :=
  (0 : BitVec 2) ++ s.errCode.code ++ (0 : BitVec 1) ++ flagBit s.dvalid ++ flagBit s.err ++ flagBit s.fin

/-- The three lifecycle states (10_state.md R40). -/
inductive Lifecycle where
  | active
  | finalized
  | faulted
deriving DecidableEq, Repr

/-- "The pair (ERR, FIN) partitions the states the host can observe" (10_state.md R40). -/
def State.lifecycle (s : State) : Lifecycle :=
  if s.err then .faulted else if s.fin then .finalized else .active

end Sys2Proof.Machine
end

