-- ==== Sys2Proof/Machine/Operands.lean ====
section
/-! DEFINITION. The operands the engine assembles: the length suffix of FINAL and FINALR and the padding it ends
(30_encoding.md R95, 42_finalization.md R161), and CTXLOAD's operand, the context image (43_context.md R181, R184, R185).
PUSH's operand is the data byte as it stands (30_encoding.md R94). -/

namespace Sys2Proof.Machine

/-- PADMARK (00_scope.md R6). -/
def padMarker : Byte := 0x80

/-- LENBITS = shl64(LEN, 3): the bit length modulo 2^64 (00_scope.md R16, 30_encoding.md R95). -/
def lenBits (len : DWord) : DWord := shl64 len 3

/-- z = (55 - n) mod 64, the number of zero bytes of the padding (42_finalization.md R161). -/
def padZeroCount (n : Nat) : Nat := (55 + 64 - n) % 64

/-- `pad(n, L)` (42_finalization.md R161): the marker, z zero bytes, the bit length as eight bytes. -/
def pad (n : Nat) (len : DWord) : List Byte :=
  padMarker :: (List.replicate (padZeroCount n) 0 ++ bytes64 (lenBits len))

/-- Word W[w] of the image on `ctx_in` (43_context.md R184, 30_encoding.md R99). -/
def ctxWord (v : BitVec 768) (w : Nat) : Word := portWord 768 v w

/-- L' = {W[6], W[5]} (43_context.md R184). -/
def ctxLen (v : BitVec 768) : DWord := ctxWord v 6 ++ ctxWord v 5

/-- N' = W[7][5:0] (43_context.md R184). -/
def ctxFill (v : BitVec 768) : BitVec 6 := (ctxWord v 7).extractLsb' 0 6

/-- W[7][31:6], reserved: must be 0 on `ctx_in` (43_context.md R181). -/
def ctxReserved (v : BitVec 768) : BitVec 26 := (ctxWord v 7).extractLsb' 6 26

/-- The Hash State in an image, words 0..4 (43_context.md R181). -/
def ctxHash (v : BitVec 768) : HashState := ⟨ctxWord v 0, ctxWord v 1, ctxWord v 2, ctxWord v 3, ctxWord v 4⟩

/-- Buffer byte k of an image: W[8 + floor(k/4)][8 (k mod 4) + 7 : 8 (k mod 4)] (43_context.md R184). -/
def ctxByte (v : BitVec 768) (k : Nat) : Byte := byteOf (ctxWord v (8 + k / 4)) (k % 4)

/-- The Pending Buffer in an image: its first N' buffer bytes; the others are ignored (43_context.md R184, R186). -/
def ctxPending (v : BitVec 768) : List Byte := (List.range (ctxFill v).toNat).map (ctxByte v)

/-- An image is valid when word 7 bits [31:6] are zero and word 7 bits [5:0] equal word 5 bits [5:0] (43_context.md R185). -/
def ctxValid (v : BitVec 768) : Bool := ctxReserved v == 0 && ctxFill v == (ctxLen v).extractLsb' 0 6

end Sys2Proof.Machine
end

