-- ==== Sys2Proof/Machine/Ops.lean ====
section
/-! DEFINITION. The named operations over the block buffer and the registers: buffer access (20_memory.md R65), emit and
complete_block (41_buffer_commands.md R143, R144), initial() (70_reset_and_hazards.md R232), the latch (42_finalization.md
R167, R168), taking a fault (60_exceptions.md R204), the reset transition, the checks common to all commands (R140). -/

namespace Sys2Proof.Machine

/-- The canonical form of the block buffer: offsets rise strictly and are offsets 0..63 (20_memory.md R50). -/
abbrev Memory.wf (m : Memory) : Prop := m.Pairwise (fun x y => x.1 < y.1) ∧ ∀ c ∈ m, c.1 < 64

/-- The byte at an offset, none where the offset holds no value (10_state.md R23). -/
def Memory.read : Memory → Nat → Option Byte
  | [], _ => none
  | (a, b) :: m, k => if a = k then some b else Memory.read m k

/-- Store one byte, keeping the offsets sorted. -/
def Memory.write : Memory → Nat → Byte → Memory
  | [], k, v => [(k, v)]
  | (a, b) :: m, k, v =>
    if k < a then (k, v) :: (a, b) :: m
    else if k = a then (k, v) :: m
    else (a, b) :: Memory.write m k v

/-- `BufWrite(off, n, v)`, n the length of v (20_memory.md R65): `BUF[off + k] <- v[k]`. -/
def bufWrite : Memory → Nat → List Byte → Memory
  | m, _, [] => m
  | m, off, b :: bs => bufWrite (Memory.write m off b) (off + 1) bs

/-- BUF[k]. An offset that holds no value gives a free value (U7); no rule reads one (10_state.md R23): log entry 4. -/
def bufByte (m : Memory) (k : Nat) : Byte := (Memory.read m k).getD (Config.staleByte k)

/-- `BufRead(off, n)` (20_memory.md R65). -/
def bufRead (m : Memory) (off n : Nat) : List Byte := (List.range n).map fun k => bufByte m (off + k)

/-- `BufRead(0, 64)` as the message block (10_state.md R41, 20_memory.md R51). -/
def bufBlock (m : Memory) : Block := Vector.ofFn fun i : Fin 64 => bufByte m i.val

/-- PB = [BUF[0], ..., BUF[N-1]] (10_state.md R23). -/
def State.pending (s : State) : List Byte := bufRead s.buf 0 s.n.toNat

/-- `complete_block()` (41_buffer_commands.md R144): the one place where H is computed from H. -/
def State.completeBlock (s : State) : State := { s with h := compress s.h (bufBlock s.buf) }

/-- N <- 0: the Pending Buffer is empty, and no offset of BUF holds a value any more (10_state.md R23; log entry 3). -/
def State.emptyBuffer (s : State) : State := { s with n := 0, buf := [] }

/-- BUF[N] <- b (41_buffer_commands.md R143). -/
def State.storeByte (b : Byte) (s : State) : State := { s with buf := bufWrite s.buf s.n.toNat [b] }

/-- N <- N + 1 (41_buffer_commands.md R143). -/
def State.countByte (s : State) : State := { s with n := s.n + 1 }

/-- `emit(b)` (41_buffer_commands.md R143): write one byte at the fill count and complete the block if that was offset 63. -/
def State.emit (b : Byte) (s : State) : State :=
  if s.n = 63 then (s.storeByte b).completeBlock.emptyBuffer else (s.storeByte b).countByte

/-- Emit the bytes of a sequence in order. -/
def State.emitAll : List Byte → State → State
  | [], s => s
  | b :: bs, s => State.emitAll bs (s.emit b)

/-- (H, PB, LEN) <- initial() (70_reset_and_hazards.md R232). -/
def State.reinit (s : State) : State := { s with h := iv, n := 0, buf := [], len := 0 }

/-- `ser(h)` (42_finalization.md R167): the five words little-endian, in the order h0, h1, h2, h3, h4. -/
def ser (h : HashState) : Digest :=
  ⟨(bytes32 h.h0 ++ bytes32 h.h1 ++ bytes32 h.h2 ++ bytes32 h.h3 ++ bytes32 h.h4).toArray, rfl⟩

/-- The LATCH phase: DIGEST <- ser(H), DVALID <- 1 (42_finalization.md R168). -/
def State.latch (s : State) : State := { s with digest := some (ser s.h) }

/-- FIN <- b (10_state.md R29). -/
def State.setFin (b : Bool) (s : State) : State := { s with fin := b }

/-- `raise Fault(code)` (60_exceptions.md R204): ERR <- 1, ERRCODE <- code, DVALID <- 0; H, PB, LEN, FIN are not changed, and
DIGEST becomes unspecified (10_state.md R37). There is no return from it (60_exceptions.md R208) but `rstTransition`. -/
def State.raiseFault (code : ErrCode) (s : State) : State :=
  { s with err := true, errCode := code, digest := none, digestDraw := s.digestDraw + 1 }

/-- The reset transition, from any state (70_reset_and_hazards.md R230, R233). It leaves the host's ports as they are, and DIGEST
becomes unspecified anew. -/
def State.rstTransition (s : State) : State :=
  { State.reset with digestDraw := s.digestDraw + 1, pins := s.pins, script := s.script }

/-- The first check of every command (41_buffer_commands.md R140): while ERR = 1 it is ignored (60_exceptions.md R207). -/
def State.whenLive (s : State) (k : State → State) : State := if s.err then s else k s

/-- The checks of PUSH, FINAL and FINALR (41_buffer_commands.md R140): ERR, then USE_AFTER_FINAL while FIN = 1 (60_exceptions.md
R202, R206). -/
def State.whenActive (s : State) (k : State → State) : State :=
  s.whenLive fun s => if s.fin then s.raiseFault .useAfterFinal else k s

/-- The host's next sample of the input ports. With no more of them the host presents no command and no reset (log entry 5). -/
def State.nextPins (s : State) : State :=
  match s.script with
  | p :: ps => { s with pins := p, script := ps }
  | [] => { s with pins := { s.pins with rst := false, cmdValid := false } }

/-- Apply an operation to the state of a next outcome. -/
def afterNext (o : Host.Outcome State Fault Refusal) (k : State → State) : Host.Outcome State Fault Refusal :=
  match o with
  | .next s => .next (k s)
  | .fault r => .fault r
  | .refused r => .refused r

end Sys2Proof.Machine
end

