-- ==== Sys2Proof/Machine/BlockBuffer.lean ====
section
/-! DEFINITION. The Block Buffer commands INIT and PUSH (41_buffer_commands.md R141, R142). -/

namespace Sys2Proof.Machine

/-- PUSH's effect: LEN <- add64(LEN, 1), emit(b) (41_buffer_commands.md R142). -/
def State.absorb (b : Byte) (s : State) : State := ({ s with len := add64 s.len 1 } : State).emit b

/-- INIT (41_buffer_commands.md R141): (H, PB, LEN) <- initial(), FIN <- 0. Legal with FIN = 0 or 1; ignored while ERR = 1. -/
def execInit (s : State) : Host.Outcome State Fault Refusal :=
  .next (s.whenLive fun s => s.reinit.setFin false)

/-- PUSH b (41_buffer_commands.md R142): append one byte to the stream; USE_AFTER_FINAL while FIN = 1. -/
def execPush (b : Byte) (s : State) : Host.Outcome State Fault Refusal :=
  .next (s.whenActive (State.absorb b))

end Sys2Proof.Machine
end

