-- ==== Sys2Proof/Machine/Context.lean ====
section
/-! DEFINITION. The context image and CTXLOAD (43_context.md R181 to R186). -/

namespace Sys2Proof.Machine

/-- Q[k], Q = PB ++ (64 - N zero bytes) (43_context.md R181). -/
def imageByte (pb : List Byte) (k : Nat) : Byte := pb.getD k 0

/-- Buffer word i of an image: le32(Q[4i], Q[4i+1], Q[4i+2], Q[4i+3]) (43_context.md R181). -/
def imageBufWord (pb : List Byte) (i : Nat) : Word :=
  le32 (imageByte pb (4 * i)) (imageByte pb (4 * i + 1)) (imageByte pb (4 * i + 2)) (imageByte pb (4 * i + 3))

/-- `image(H, PB, LEN)`, the 24 words of 43_context.md R181, R182. -/
def image (h : HashState) (pb : List Byte) (len : DWord) : List Word :=
  [h.h0, h.h1, h.h2, h.h3, h.h4, len.extractLsb' 0 32, len.extractLsb' 32 32, BitVec.ofNat 32 pb.length]
    ++ (List.range 16).map (imageBufWord pb)

/-- CTXLOAD's effect on a valid image: H, LEN, N, PB from the image, FIN <- 0 (43_context.md R184). -/
def State.loadImage (v : BitVec 768) (s : State) : State :=
  { s with h := ctxHash v, n := ctxFill v, buf := bufWrite [] 0 (ctxPending v), len := ctxLen v, fin := false }

/-- CTXLOAD's check, before any write, and its effect (43_context.md R184, R185). -/
def State.loadContext (v : BitVec 768) (s : State) : State :=
  if ctxValid v then s.loadImage v else s.raiseFault .badContext

/-- CTXLOAD (43_context.md R184): replace the hashing state by the image on `ctx_in`, sampled at the beat; BAD_CONTEXT on an
invalid image. Legal with FIN = 0 or 1; ignored while ERR = 1. -/
def execCtxload (s : State) : Host.Outcome State Fault Refusal :=
  .next (s.whenLive (State.loadContext s.pins.ctxIn))

end Sys2Proof.Machine
end

