-- ==== Sys2Proof/Machine/Finalization.lean ====
section
/-! DEFINITION. The finalization commands FINAL and FINALR (42_finalization.md R160 to R170), and the digest as a function
of the stream (R171). -/

namespace Sys2Proof.Machine

/-- PAD_ZERO: `while N != 56: emit(0x00)` (42_finalization.md R162), as a recursion on a bound. The loop emits at most 63 bytes
(R164), so the bound 64 is never what ends it. -/
def State.padZeros : Nat → State → State
  | 0, s => s
  | bound + 1, s => if s.n = 56 then s else State.padZeros bound (s.emit 0)

/-- What FINAL and FINALR have in common, up to and with the latch (42_finalization.md R162, R163): PAD_MARK, PAD_ZERO, PAD_LEN,
LATCH. LENBITS is sampled first. -/
def State.finish (s : State) : State :=
  (((s.emit padMarker).padZeros 64).emitAll (bytes64 (lenBits s.len))).latch

/-- FINAL (42_finalization.md R162): pad, compress, latch the digest, invalidate; USE_AFTER_FINAL while FIN = 1. -/
def execFinal (s : State) : Host.Outcome State Fault Refusal :=
  .next (s.whenActive fun s => s.finish.setFin true)

/-- FINALR (42_finalization.md R163): pad, compress, latch the digest, then restore the initial hashing state; FIN stays 0;
USE_AFTER_FINAL while FIN = 1. -/
def execFinalr (s : State) : Host.Outcome State Fault Refusal :=
  .next (s.whenActive fun s => s.finish.reinit)

/-- The chaining value after the first t blocks of a byte sequence: compress(... compress(h, B_0) ..., B_(t-1))
(41_buffer_commands.md R146). -/
def chain (h : HashState) (s : List Byte) : Nat → HashState
  | 0 => h
  | t + 1 => compress (chain h s t) (blockAt s t)

/-- P = S ++ pad(L mod 64, L) (42_finalization.md R171). -/
def padded (s : List Byte) : List Byte := s ++ pad (s.length % 64) (BitVec.ofNat 64 s.length)

/-- t, the number of blocks of P (42_finalization.md R171). -/
def paddedBlocks (len : Nat) : Nat := if len % 64 ≤ 55 then len / 64 + 1 else len / 64 + 2

/-- RMD160(S) = ser(h_t) (42_finalization.md R171). -/
def rmd160 (s : List Byte) : Digest := ser (chain iv (padded s) (paddedBlocks s.length))

end Sys2Proof.Machine
end

