-- ==== Sys2Proof/Machine/Dispatch.lean ====
section
/-! DEFINITION. The dispatch on the decoded command (41_buffer_commands.md R140), one arm per instruction. -/

namespace Sys2Proof.Machine

def exec (i : Instr) (s : State) : Host.Outcome State Fault Refusal :=
  match i with
  | .init => Sys2Proof.Machine.execInit s
  | .push b => Sys2Proof.Machine.execPush b s
  | .final => Sys2Proof.Machine.execFinal s
  | .finalr => Sys2Proof.Machine.execFinalr s
  | .ctxload => Sys2Proof.Machine.execCtxload s

end Sys2Proof.Machine
end

