-- ==== Sys2Proof/Machine/Accept.lean ====
section
/-! DEFINITION. What the input ports do in one step: reset, no command, or a command word accepted and executed
(30_encoding.md R81, 41_buffer_commands.md R140, 70_reset_and_hazards.md R230). -/

namespace Sys2Proof.Machine

/-- A reserved word: ILLEGAL_COMMAND, and ignored while ERR = 1 (30_encoding.md R90, R91, 60_exceptions.md R203, R207). -/
def execReserved (s : State) : Host.Outcome State Fault Refusal :=
  .next (s.whenLive (State.raiseFault .illegalCommand))

/-- A command word is accepted: `execute(cmd)` of 41_buffer_commands.md R140. The ERR check that R140 makes first stands in
every meaning and in `execReserved`. -/
def accept (cmd : CmdWord) (s : State) : Host.Outcome State Fault Refusal :=
  match decode cmd with
  | .command i => exec i s
  | .reserved _ => execReserved s

/-- One sample of the input ports: `rst` overrides everything (70_reset_and_hazards.md R230), a beat is `cmd_valid` with
`cmd_ready`, which is 1 (30_encoding.md R81), and otherwise nothing changes. -/
def samplePins (s : State) : Host.Outcome State Fault Refusal :=
  if s.pins.rst then .next s.rstTransition
  else if s.pins.cmdValid then accept s.pins.cmd s
  else .next s

end Sys2Proof.Machine
end

