-- ==== Sys2Proof/Machine/Step.lean ====
section
/-! DEFINITION. One step: the engine acts on the present sample of its input ports, then the host's next sample stands there.
Log entries 5 and 6. -/

namespace Sys2Proof.Machine

/-- One step of the machine. -/
def step (s : State) : Host.Outcome State Fault Refusal := afterNext (samplePins s) State.nextPins

/-- The state with a command word presented on the `cmd` port, so that the next step accepts it. There is no fetch: a command
comes from the host at the moment of execution (20_memory.md R64), so this stands for the host's presenting it: log entry 7. -/
def State.withFetchWord (s : State) (nbits w : Nat) : State :=
  { s with pins := { s.pins with rst := false, cmdValid := true, cmd := tableWord nbits w } }

end Sys2Proof.Machine
end

