-- ==== Sys2Proof/Machine/Sequencer.lean ====
section
/-! DEFINITION. The internal sequencer of the Block Buffer (10_state.md R28): the phases of INIT and PUSH (41_buffer_commands.md
R148) and the padding and length-append state machine (42_finalization.md R164), as a micro-machine over State. It is not
architectural and no state the host observes holds it: `exec` gives each command as one transition. Log entries 8 and 10. -/

namespace Sys2Proof.Machine

/-- PHASE (10_state.md R28). -/
inductive Phase where
  | idle
  | absorb
  | compress
  | padMark
  | padZero
  | padLen
  | latch
  | reinit
  | loadctx
deriving DecidableEq, Repr

/-- The engine inside a command: the architectural state and what exists only inside a command (10_state.md R38). -/
structure Seq where
  st : State
  phase : Phase
  /-- The command being executed. -/
  cmd : Instr
  /-- The phase COMPRESS goes back to. -/
  back : Phase
  /-- LENBITS, latched by PAD_MARK. -/
  bits : DWord
  /-- k, the next length byte of PAD_LEN. -/
  k : Nat
  /-- The MODEL's own count of the invocations of the Compression Engine. -/
  compressions : Nat
deriving DecidableEq, Repr

/-- The first phase of a command that passes dispatch (41_buffer_commands.md R148, 42_finalization.md R164). DESIGN CHOICE for CTXLOAD: the
spec names LOADCTX (10_state.md R28) but gives it no transition, and the model enters it from IDLE before the image is checked:
log entry 10. -/
def firstPhase : Instr → Phase
  | .init => .reinit
  | .push _ => .absorb
  | .final => .padMark
  | .finalr => .padMark
  | .ctxload => .loadctx

/-- The commands that fault while FIN = 1 (41_buffer_commands.md R140). -/
def needsActive : Instr → Bool
  | .init => false
  | .push _ => true
  | .final => true
  | .finalr => true
  | .ctxload => false

/-- A sequencer that is not inside a command. `back`, `bits` and `k` hold no value the machine ever reads (70_reset_and_hazards.md
R233). -/
def Seq.atRest (i : Instr) (s : State) : Seq :=
  { st := s, phase := .idle, cmd := i, back := .idle, bits := 0, k := 0, compressions := 0 }

/-- Dispatch (41_buffer_commands.md R140): an ignored or faulting command stays in IDLE, another enters its first phase. -/
def Seq.start (i : Instr) (s : State) : Seq :=
  if s.err then Seq.atRest i s
  else if s.fin && needsActive i then Seq.atRest i (s.raiseFault .useAfterFinal)
  else { Seq.atRest i s with phase := firstPhase i }

/-- Write a byte at offset N, then go on with `p`: at offset 63 through COMPRESS, else with N <- N + 1 (42_finalization.md R164). -/
def Seq.put (b : Byte) (p : Phase) (q : Seq) : Seq :=
  if q.st.n = 63 then { q with st := q.st.storeByte b, phase := .compress, back := p }
  else { q with st := (q.st.storeByte b).countByte, phase := p }

/-- Where padding goes on after a byte at offset N: PAD_LEN when N becomes 56, else PAD_ZERO (42_finalization.md R164). -/
def afterPadByte (n : BitVec 6) : Phase := if n = 55 then .padLen else .padZero

/-- PUSH's data byte; the operand field of every other command is 0 (30_encoding.md R82). -/
def dataByte : Instr → Byte
  | .init => 0
  | .push b => b
  | .final => 0
  | .finalr => 0
  | .ctxload => 0

/-- One phase of the sequencer (41_buffer_commands.md R148, 42_finalization.md R164). DESIGN CHOICE, log entry 10: no phase table has a row for
LOADCTX, and here it is one phase that makes CTXLOAD's image check, takes BAD_CONTEXT or loads the image (43_context.md R184), and goes
to IDLE; and INIT's FIN <- 0 (R141), which no phase table places, happens in REINIT. -/
def Seq.micro (q : Seq) : Seq :=
  match q.phase with
  | .idle => q
  | .absorb => Seq.put (dataByte q.cmd) .idle { q with st := { q.st with len := add64 q.st.len 1 } }
  | .compress =>
    { q with st := q.st.completeBlock.emptyBuffer, phase := q.back, compressions := q.compressions + 1 }
  | .padMark => Seq.put padMarker (afterPadByte q.st.n) { q with bits := lenBits q.st.len, k := 0 }
  | .padZero => Seq.put 0 (afterPadByte q.st.n) q
  | .padLen => Seq.put (byteOf64 q.bits q.k) (if q.k = 7 then .latch else .padLen) { q with k := q.k + 1 }
  | .latch =>
    if q.cmd = .final then { q with st := q.st.latch.setFin true, phase := .idle }
    else { q with st := q.st.latch, phase := .reinit }
  | .reinit =>
    if q.cmd = .init then { q with st := q.st.reinit.setFin false, phase := .idle }
    else { q with st := q.st.reinit, phase := .idle }
  | .loadctx => { q with st := q.st.loadContext q.st.pins.ctxIn, phase := .idle }

/-- `k` phases in order. -/
def Seq.run : Nat → Seq → Seq
  | 0, q => q
  | k + 1, q => Seq.run k q.micro

end Sys2Proof.Machine
end

