-- ==== Sys2Proof/Machine/Ports.lean ====
section
/-! DEFINITION. The output ports, as functions of the state (30_encoding.md R80, R81, R97 to R99; 10_state.md R34, R35), and the
Compression Engine's internal ports (40_compression.md R127). Reading a port changes nothing (20_memory.md R58). -/

namespace Sys2Proof.Machine

/-- `cmd_ready`: 1 in every observable state, FAULT included (30_encoding.md R81). -/
def State.cmdReady (_ : State) : Bool := true

/-- The 20 bytes on the `digest` port: the latch while DVALID = 1, a free value while DVALID = 0 (10_state.md R33, R37; log
entries 1 and 2). -/
def State.digestBytes (s : State) : Digest := s.digest.getD (Config.digestReset s.digestDraw)

/-- `digest[159:0]` (30_encoding.md R98). -/
def State.digestPort (s : State) : BitVec 160 := BitVec.ofNat 160 (packBytes s.digestBytes.toList)

/-- The context image of the state, a function of (H, PB, LEN) (10_state.md R35, 43_context.md R183). -/
def State.contextImage (s : State) : List Word := image s.h s.pending s.len

/-- `ctx_out[767:0]` (30_encoding.md R99, 43_context.md R183). -/
def State.ctxOut (s : State) : BitVec 768 := BitVec.ofNat 768 (packWords s.contextImage)

/-- The output ports together (30_encoding.md R80). -/
structure OutPorts where
  cmdReady : Bool
  status : BitVec 8
  dvalid : Bool
  digest : BitVec 160
  ctxOut : BitVec 768
deriving DecidableEq, Repr

/-- What the host sees (70_reset_and_hazards.md R245). -/
def State.outPorts (s : State) : OutPorts :=
  { cmdReady := s.cmdReady, status := s.status, dvalid := s.dvalid, digest := s.digestPort, ctxOut := s.ctxOut }

/-- A chaining value from `h_in`, word i on bits [32i+31:32i] (40_compression.md R127). -/
def hashFromPort (v : BitVec 160) : HashState :=
  ⟨portWord 160 v 0, portWord 160 v 1, portWord 160 v 2, portWord 160 v 3, portWord 160 v 4⟩

/-- A chaining value on `h_out` (40_compression.md R127). -/
def hashToPort (h : HashState) : BitVec 160 := BitVec.ofNat 160 (packWords h.words)

/-- A block from `block_in`, byte k on bits [8k+7:8k] (40_compression.md R127). -/
def blockFromPort (v : BitVec 512) : Block := Vector.ofFn fun i : Fin 64 => portByte 512 v i.val

/-- The Compression Engine at its ports: `h_out` as a function of `h_in` and `block_in` (40_compression.md R127). -/
def compressPorts (hIn : BitVec 160) (blockIn : BitVec 512) : BitVec 160 :=
  hashToPort (compress (hashFromPort hIn) (blockFromPort blockIn))

end Sys2Proof.Machine
end

