-- ==== Sys2Proof/Machine/Pseudo.lean ====
section
/-! DEFINITION. Command sequences: running them, and the pseudo-commands INPUT, HASH, HASHR, CLONE and COMPRESS
(30_encoding.md R102 to R105). -/

namespace Sys2Proof.Machine

/-- Commands executed in order, each to completion (20_memory.md R62). -/
def execAll : List Instr → State → Host.Outcome State Fault Refusal
  | [], s => .next s
  | i :: is, s =>
    match exec i s with
    | .next t => execAll is t
    | .fault r => .fault r
    | .refused r => .refused r

/-- INPUT s: one PUSH per byte, in order (30_encoding.md R102). -/
def inputCmds (s : List Byte) : List Instr := s.map Instr.push

/-- HASH s: INIT; INPUT s; FINAL (30_encoding.md R103). -/
def hashCmds (s : List Byte) : List Instr := .init :: (inputCmds s ++ [.final])

/-- HASHR s: INPUT s; FINALR (30_encoding.md R103). -/
def hashrCmds (s : List Byte) : List Instr := inputCmds s ++ [.finalr]

/-- The state with an image driven on `ctx_in` by the host. -/
def State.driveCtx (v : BitVec 768) (s : State) : State := { s with pins := { s.pins with ctxIn := v } }

/-- CLONE dst <- src: `ctx_out` of src driven on `ctx_in` of dst and CTXLOAD issued to dst (30_encoding.md R104). -/
def cloneInto (dst src : State) : Host.Outcome State Fault Refusal := exec .ctxload (dst.driveCtx src.ctxOut)

/-- img0(h): words 0..4 = h and words 5..23 = 0 (30_encoding.md R105). -/
def rawImage (h : HashState) : BitVec 768 := BitVec.ofNat 768 (packWords h.words)

/-- COMPRESS h, block: CTXLOAD img0(h); INPUT block, with img0(h) driven on `ctx_in` (30_encoding.md R105). -/
def compressCmds (block : Block) : List Instr := .ctxload :: inputCmds block.toList

/-- The sample of the input ports by which the host presents one command (30_encoding.md R81). -/
def beat (i : Instr) (v : BitVec 768) : Pins := { rst := false, cmdValid := true, cmd := encode i, ctxIn := v }

end Sys2Proof.Machine
end

