-- ==== Sys2Proof/Safety.lean ====
section
/-! DEFINITION. What holds in every state the host can observe, as a predicate on states that every step keeps: the canonical
form of the buffer, N against LEN (10_state.md R24), the fault flag and its code (R31), DVALID and DIGEST (R32, R37, R40). -/

namespace Sys2Proof.Machine

/-- The initial hashing state (70_reset_and_hazards.md R232): H = IV, PB empty (N = 0), LEN = 0. -/
def State.InitialHashing (s : State) : Prop := s.h = iv ∧ s.n = 0 ∧ s.buf = [] ∧ s.len = 0

/-- BUF holds a value exactly at the offsets 0..N-1 (10_state.md R23; log entry 3). -/
def State.BufferIsPending (s : State) : Prop := s.buf.map Prod.fst = List.range s.n.toNat

/-- "if FIN = 0 then N = LEN mod 64; if FIN = 1 then N = 0" (10_state.md R24). -/
def State.FillMatchesLen (s : State) : Prop :=
  (s.fin = false → s.n = s.len.extractLsb' 0 6) ∧ (s.fin = true → s.n = 0)

/-- "ERRCODE != 0 exactly when ERR = 1" (10_state.md R31). -/
def State.ErrMatchesCode (s : State) : Prop := s.err = true ↔ s.errCode ≠ .noFault

/-- A fault clears DVALID and nothing sets it while ERR = 1 (10_state.md R32, 60_exceptions.md R204, R207). -/
def State.FaultHidesDigest (s : State) : Prop := s.err = true → s.digest = none

/-- USE_AFTER_FINAL needs FIN = 1 (30_encoding.md R97, 60_exceptions.md R202). -/
def State.MisuseIsFinalized (s : State) : Prop := s.errCode = .useAfterFinal → s.fin = true

/-- In FINALIZED, H holds the final chaining value whose serialization is DIGEST (10_state.md R40). -/
def State.FinalizedShowsDigest (s : State) : Prop :=
  s.err = false → s.fin = true → s.digest = some (ser s.h)

/-- The invariant of the machine. -/
structure State.Inv (s : State) : Prop where
  memory : Memory.wf s.buf
  pendingOnly : s.BufferIsPending
  fill : s.FillMatchesLen
  code : s.ErrMatchesCode
  hidden : s.FaultHidesDigest
  misuse : s.MisuseIsFinalized
  shown : s.FinalizedShowsDigest

/-- A state the machine can be in after some number of steps from reset, whatever the host drives. -/
def Reachable (t : State) : Prop :=
  ∃ (pins : Pins) (script : List Pins) (k : Nat),
    Sys2Proof.core.run k ({ State.reset with pins := pins, script := script } : State) = .next t

end Sys2Proof.Machine
end

