-- ==== Sys2Proof/Certificates/Slice0/Obligations.lean ====
section
/-! DEFINITION. The statements for the provers, from the spec's numbered rules. -/

open Sys2Proof Sys2Proof.Machine

/-! ### Command words -/

/-- 30_encoding.md R96: "Encoding is the inverse on the five rows of rule R84, and decode(encode(c)) = c for every command c"; no
other word decodes to a command, and the words of the five rows are 0x0100, 0x0200 + b, 0x0300, 0x0400, 0x0500. -/
def Obligations.DecodeAndEncodeAgree : Prop :=
  (∀ i : Instr, i.wellFormed = true → decode (encode i) = .command i) ∧
  (∀ (w : CmdWord) (i : Instr), decode w = .command i → w = encode i) ∧
  (∀ w : CmdWord, (∀ i, w ≠ encode i) → ∃ r, decode w = .reserved r) ∧
  (encode .init).toNat = 0x0100 ∧ (∀ b, (encode (.push b)).toNat = 0x0200 + b.toNat) ∧ (encode .final).toNat = 0x0300 ∧
  (encode .finalr).toNat = 0x0400 ∧ (encode .ctxload).toNat = 0x0500

/-- 30_encoding.md R85 to R91, words written out by hand: one of each command, three reserved opcodes, four reserved operands. -/
def Obligations.SampleWordsDecodeAsTheTableSays : Prop :=
  decode 0x0100 = .command .init ∧ decode 0x0200 = .command (.push 0x00) ∧ decode 0x0261 = .command (.push 0x61) ∧
  decode 0x02FF = .command (.push 0xFF) ∧ decode 0x0300 = .command .final ∧ decode 0x0400 = .command .finalr ∧
  decode 0x0500 = .command .ctxload ∧ decode 0x0000 = .reserved .opcode ∧ decode 0x0600 = .reserved .opcode ∧
  decode 0xFFFF = .reserved .opcode ∧ decode 0x0101 = .reserved .operand ∧ decode 0x0301 = .reserved .operand ∧
  decode 0x0401 = .reserved .operand ∧ decode 0x0502 = .reserved .operand

/-- 30_encoding.md R84, R90, R91: a word is a command exactly when it matches a row of the opcode map, no word matches two rows,
and a word that matches none is reserved by its opcode (0 or 6 and above) or by its operand (not 0 where it must be). -/
def Obligations.ReservedWordsAreThoseThatMatchNoRow : Prop :=
  (∀ w : CmdWord, (∃ i, decode w = .command i) ↔ legalWord w = true) ∧
  (∀ w : CmdWord, ∀ r₁ ∈ opRows, ∀ r₂ ∈ opRows, r₁.matchesWord w = true → r₂.matchesWord w = true → r₁ = r₂) ∧
  (∀ w : CmdWord, decode w = .reserved .opcode ↔ w.toNat / 256 = 0 ∨ 6 ≤ w.toNat / 256) ∧
  (∀ w : CmdWord, decode w = .reserved .operand ↔ w.toNat / 256 ∈ [1, 3, 4, 5] ∧ w.toNat % 256 ≠ 0)

/-! ### The step -/

/-- 30_encoding.md R81, 41_buffer_commands.md R140: a step that accepts a command word runs the decoded command, and around it only
moves the input ports on to the host's next sample (`nextPins`, log entry 5: the model's own). -/
def Obligations.StepRunsTheDecodedCommand : Prop :=
  (∀ (s : State) (i : Instr), i.wellFormed = true → s.pins.rst = false → s.pins.cmdValid = true →
    decode s.pins.cmd = .command i → step s = afterNext (exec i s) State.nextPins) ∧
  (∀ (s : State) (i : Instr), i.wellFormed = true →
    step (s.withFetchWord 16 (encode i).toNat) = afterNext (exec i (s.withFetchWord 16 (encode i).toNat)) State.nextPins) ∧
  (∀ (s : State) (p : Pins) (ps : List Pins), s.script = p :: ps → s.nextPins = { s with pins := p, script := ps }) ∧
  (∀ s : State, s.script = [] → s.nextPins = { s with pins := { s.pins with rst := false, cmdValid := false } })

/-- 30_encoding.md R81: "Between beats nothing changes." With neither `rst` nor `cmd_valid` a step only moves the input ports on, and
every output port shows what it showed. -/
def Obligations.NothingChangesBetweenBeats : Prop :=
  ∀ s : State, s.pins.rst = false → s.pins.cmdValid = false →
    step s = .next s.nextPins ∧ s.nextPins.outPorts = s.outPorts

/-- 60_exceptions.md R203: "ILLEGAL_COMMAND is raised by every accepted command word that matches no row of R84, while ERR = 0." -/
def Obligations.ReservedWordRaisesIllegalCommand : Prop :=
  ∀ s : State, s.pins.rst = false → s.pins.cmdValid = true → s.err = false → legalWord s.pins.cmd = false →
    ∃ t, step s = .next t ∧ t.err = true ∧ t.errCode = .illegalCommand ∧ t.dvalid = false ∧
      t.h = s.h ∧ t.n = s.n ∧ t.buf = s.buf ∧ t.len = s.len ∧ t.fin = s.fin

/-- 10_state.md R36, 70_reset_and_hazards.md R230, R233: `rst` overrides everything and leaves the reset state, from any state and
whatever is on `cmd`. That the step keeps the host's ports and numbers the unspecified digest is the model's own (log entries 2
and 5). -/
def Obligations.ResetPinLeavesTheResetState : Prop :=
  ∀ s : State, s.pins.rst = true →
    step s = .next ({ h := ⟨0x67452301, 0xEFCDAB89, 0x98BADCFE, 0x10325476, 0xC3D2E1F0⟩, n := 0, buf := [], len := 0,
                      fin := false, err := false, errCode := .noFault, digest := none, digestDraw := s.digestDraw + 1,
                      pins := s.pins, script := s.script } : State).nextPins

/-- 70_reset_and_hazards.md R232: initial(), H = IV, PB empty (N = 0), LEN = 0, "is established by the reset pin, by INIT and by the
last phase of FINALR". -/
def Obligations.InitialHashingStateIsEstablished : Prop :=
  (∀ s : State, s.pins.rst = true → ∃ t, step s = .next t ∧ t.InitialHashing) ∧
  (∀ s : State, s.err = false → ∃ t, exec .init s = .next t ∧ t.InitialHashing) ∧
  (∀ s : State, s.err = false → s.fin = false → ∃ t, exec .finalr s = .next t ∧ t.InitialHashing) ∧
  (∀ t : State, t.InitialHashing →
    t.h = ⟨0x67452301, 0xEFCDAB89, 0x98BADCFE, 0x10325476, 0xC3D2E1F0⟩ ∧ t.pending = [] ∧ t.n = 0 ∧ t.len = 0)

/-- 70_reset_and_hazards.md R247: "Every command completes after a finite amount of work": every command and every step answers a
next state, in every state. -/
def Obligations.EveryCommandAndStepCompletes : Prop :=
  (∀ (i : Instr) (s : State), ∃ t, exec i s = .next t) ∧ (∀ s : State, ∃ t, step s = .next t)

/-! ### Faults and the FAULT state -/

/-- 60_exceptions.md R207: while ERR = 1 every accepted command word, legal or reserved, is ignored: no state changes, no port
changes, ERRCODE keeps the first cause, `cmd_ready` stays 1, `dvalid` = 0. -/
def Obligations.FaultStateIgnoresEveryCommand : Prop :=
  ∀ s : State, s.err = true →
    (∀ i, exec i s = .next s) ∧ (∀ cmd, accept cmd s = .next s) ∧ s.cmdReady = true ∧ (s.Inv → s.dvalid = false) ∧
    (s.pins.rst = false → step s = .next s.nextPins ∧ s.nextPins.errCode = s.errCode ∧ s.nextPins.outPorts = s.outPorts)

/-- 60_exceptions.md R208: "The FAULT state is left only by the reset pin, which restores the complete reset state"; INIT does not
clear ERR. -/
def Obligations.OnlyTheResetPinLeavesFault : Prop :=
  ∀ s t : State, s.err = true → step s = .next t →
    (s.pins.rst = false → t.err = true ∧ t.errCode = s.errCode) ∧
    (s.pins.rst = true → t.InitialHashing ∧ t.fin = false ∧ t.err = false ∧ t.errCode = .noFault ∧ t.dvalid = false) ∧
    exec .init s = .next s

/-- 60_exceptions.md R206: one command raises at most one fault, the first that applies of: ignored, reserved word, misuse after
FINAL (opcodes 2, 3, 4), invalid image on CTXLOAD (word 0x0500). -/
def Obligations.FaultChecksHaveTheStatedPriority : Prop :=
  ∀ s t : State, s.pins.rst = false → s.pins.cmdValid = true → step s = .next t →
    (t.err, t.errCode) =
      if s.err = true then (true, s.errCode)
      else if legalWord s.pins.cmd = false then (true, ErrCode.illegalCommand)
      else if s.fin = true ∧ s.pins.cmd.toNat / 256 ∈ [2, 3, 4] then (true, ErrCode.useAfterFinal)
      else if s.pins.cmd = 0x0500 ∧ ctxValid s.pins.ctxIn = false then (true, ErrCode.badContext)
      else (false, s.errCode)

/-- 60_exceptions.md R204, R211: a fault is precise: the command that raises it changes H, PB, LEN and FIN in nothing, so `ctx_out`
shows the hashing state as it was; it sets ERR and a cause and clears DVALID. -/
def Obligations.FaultsArePrecise : Prop :=
  ∀ s t : State, step s = .next t → s.err = false → t.err = true →
    t.h = s.h ∧ t.n = s.n ∧ t.buf = s.buf ∧ t.len = s.len ∧ t.fin = s.fin ∧ t.ctxOut = s.ctxOut ∧
    t.errCode ≠ .noFault ∧ t.dvalid = false

/-- 60_exceptions.md R200: "No command that is legal in the current lifecycle state can fail", for every data value, every stream
length and every chunking. -/
def Obligations.LegalCommandsNeverFail : Prop :=
  ∀ (s : State) (i : Instr), s.err = false → (needsActive i = true → s.fin = false) →
    (i = .ctxload → ctxValid s.pins.ctxIn = true) →
    ∃ t, exec i s = .next t ∧ t.err = false ∧ t.errCode = s.errCode

/-- 60_exceptions.md R202: PUSH, FINAL and FINALR all raise USE_AFTER_FINAL when FIN = 1 (with the effects of R204); INIT and CTXLOAD
do not raise it, and no command raises it while FIN = 0. -/
def Obligations.UseAfterFinalFaults : Prop :=
  (∀ (s : State) (i : Instr), s.err = false → s.fin = true →
    ((∃ b, i = .push b) ∨ i = .final ∨ i = .finalr) →
    ∃ t, exec i s = .next t ∧ t.err = true ∧ t.errCode = .useAfterFinal ∧ t.dvalid = false ∧
      t.h = s.h ∧ t.n = s.n ∧ t.buf = s.buf ∧ t.len = s.len ∧ t.fin = s.fin) ∧
  (∀ (s t : State) (i : Instr), (i = .init ∨ i = .ctxload ∨ s.fin = false) → exec i s = .next t →
    t.errCode = .useAfterFinal → s.errCode = .useAfterFinal)

/-! ### INIT -/

/-- 41_buffer_commands.md R141: INIT sets H to the initialisation constants, N and LEN to 0, empties the Pending Buffer and clears FIN;
ERR, ERRCODE, DVALID and DIGEST stay; legal with FIN = 0 or 1; ignored while ERR = 1; in the initial state it changes nothing; a stream
absorbed before it has no effect on the digest of the stream after it. -/
def Obligations.InitRestoresTheInitialHashingState : Prop :=
  ∀ s : State,
    (s.err = false → exec .init s = .next { s with h := ⟨0x67452301, 0xEFCDAB89, 0x98BADCFE, 0x10325476, 0xC3D2E1F0⟩,
                                                   n := 0, buf := [], len := 0, fin := false }) ∧
    (s.err = true → exec .init s = .next s) ∧
    (s.InitialHashing → s.fin = false → exec .init s = .next s) ∧
    (s.err = false → ∀ stream, ∃ t, execAll (.init :: (inputCmds stream ++ [.final])) s = .next t ∧
      t.digest = some (rmd160 stream))

/-- 70_reset_and_hazards.md R234: `rst` also clears ERR, ERRCODE and DVALID; INIT clears only FIN and is ignored in FAULT; with ERR = 0
and DVALID = 0 they have the same effect. -/
def Obligations.ResetAndInitDifferOnlyInLifecycleAndOutput : Prop :=
  ∀ s t : State, s.Inv → s.pins.rst = true → step s = .next t →
    (t.err = false ∧ t.errCode = .noFault ∧ t.dvalid = false) ∧
    (∀ u, exec .init s = .next u → u.err = s.err ∧ u.errCode = s.errCode ∧ u.digest = s.digest) ∧
    (s.err = true → exec .init s = .next s) ∧
    (s.err = false → ∃ u, exec .init s = .next u ∧ t.h = u.h ∧ t.n = u.n ∧ t.buf = u.buf ∧ t.len = u.len ∧ t.fin = u.fin ∧
      t.err = u.err ∧ t.errCode = u.errCode ∧ (s.dvalid = false → t.digest = u.digest))

/-! ### PUSH -/

/-- 41_buffer_commands.md R142, R143: PUSH below offset 63: BUF[N] <- b, N <- N + 1, LEN <- LEN + 1 modulo 2^64, nothing else; every
other offset of the buffer reads as before. -/
def Obligations.PushStoresTheByteAtTheFillCount : Prop :=
  ∀ (s : State) (b : Byte), s.err = false → s.fin = false → s.n ≠ 63 →
    exec (.push b) s = .next { s with n := s.n + 1, buf := bufWrite s.buf s.n.toNat [b], len := s.len + 1 } ∧
    ∀ k, Memory.read (bufWrite s.buf s.n.toNat [b]) k = if k = s.n.toNat then some b else Memory.read s.buf k

/-- 41_buffer_commands.md R142 to R144: PUSH at offset 63 completes the block: H is replaced by compress(H, block), where the block is
the buffer with the byte at offset 63, N returns to 0, the buffer is consumed, LEN <- LEN + 1 modulo 2^64, nothing else. -/
def Obligations.PushAtOffset63CompletesTheBlock : Prop :=
  ∀ (s : State) (b : Byte) (block : Block), s.err = false → s.fin = false → s.n = 63 → s.BufferIsPending →
    (∀ k : Fin 64, block[k.val] = if k.val = 63 then b else (Memory.read s.buf k.val).getD 0) →
    exec (.push b) s = .next { s with h := compress s.h block, n := 0, buf := [], len := s.len + 1 }

/-- 41_buffer_commands.md R143: emit writes one byte at the fill count; "In terms of the Pending Buffer: PB <- PB ++ [b]; if len(PB) = 64
then H <- compress(H, PB) and PB <- []", with N the length of PB; it does not touch LEN; PUSH uses it for its data byte, FINAL and
FINALR for the padding bytes. -/
def Obligations.EmitAppendsToThePendingBuffer : Prop :=
  (∀ (s : State) (b : Byte), s.BufferIsPending →
    (s.emit b).BufferIsPending ∧ (s.emit b).n.toNat = (s.emit b).pending.length ∧ (s.emit b).len = s.len ∧
    if (s.pending ++ [b]).length = 64
    then (s.emit b).h = compress s.h (blockAt (s.pending ++ [b]) 0) ∧ (s.emit b).pending = []
    else (s.emit b).h = s.h ∧ (s.emit b).pending = s.pending ++ [b]) ∧
  (∀ (s : State) (b : Byte), s.n ≠ 63 → s.emit b = { s with n := s.n + 1, buf := bufWrite s.buf s.n.toNat [b] }) ∧
  (∀ s : State, s.err = false → s.fin = false →
    (∀ b, exec (.push b) s = .next (({ s with len := s.len + 1 } : State).emit b)) ∧
    exec .final s = .next ((State.emitAll (pad s.n.toNat s.len) s).latch.setFin true) ∧
    exec .finalr s = .next (State.emitAll (pad s.n.toNat s.len) s).latch.reinit)

/-! ### FINAL and FINALR -/

/-- 00_scope.md R16: LENBITS is "length in bytes x 8" reduced modulo 2^64, the exact product for LEN < 2^61. -/
def Obligations.LengthBitsAreEightTimesTheLength : Prop :=
  ∀ len : DWord, (lenBits len).toNat = 8 * len.toNat % 2 ^ 64 ∧
    (len.toNat < 2 ^ 61 → (lenBits len).toNat = 8 * len.toNat)

/-- 42_finalization.md R161: pad(n, L) is the marker, z zero bytes and the bit length; z = 55 - n or 119 - n is the least number that
brings n + 1 + z to 56 modulo 64; the length is 64 - n or 128 - n, so PB ++ pad is one block when N <= 55 and two when N >= 56. -/
def Obligations.PaddingHasTheStatedShape : Prop :=
  ∀ (n : Nat) (len : DWord), n < 64 →
    ∃ z, pad n len = (0x80 : Byte) :: (List.replicate z (0x00 : Byte) ++ bytes64 (len <<< 3)) ∧
      z = (if n ≤ 55 then 55 - n else 119 - n) ∧ (n + 1 + z) % 64 = 56 ∧ (∀ z', (n + 1 + z') % 64 = 56 → z ≤ z') ∧
      (pad n len).length = (if n ≤ 55 then 64 - n else 128 - n) ∧
      ∀ pb : List Byte, pb.length = n → (pb ++ pad n len).length = if n ≤ 55 then 64 else 128

/-- 42_finalization.md R162: "Equivalently: for each byte p of pad(N, LEN) in order, emit(p); then latch." LEN is not changed; FIN and
DVALID are set. In every state, whatever the buffer holds. -/
def Obligations.FinalEmitsThePaddingThenLatches : Prop :=
  ∀ s : State, s.err = false → s.fin = false →
    exec .final s = .next { State.emitAll (pad s.n.toNat s.len) s with
                            digest := some (ser (State.emitAll (pad s.n.toNat s.len) s).h), fin := true }

/-- 42_finalization.md R162, R166, case N0 <= 55: one block, PB at offsets 0 .. N0-1, 0x80 at N0, 0x00 up to 55, the bit length
little-endian at 56 .. 63; H <- compress(H, block), the digest latched from it, N = 0, the buffer consumed, FIN = 1, and LEN and all
else as before. -/
def Obligations.FinalCompressesOnePaddedBlock : Prop :=
  ∀ (s : State) (block : Block), s.err = false → s.fin = false → s.BufferIsPending → s.n.toNat ≤ 55 →
    (∀ k : Fin 64, block[k.val] =
      if k.val < s.n.toNat then (Memory.read s.buf k.val).getD 0
      else if k.val = s.n.toNat then 0x80
      else if k.val < 56 then 0x00
      else (s.len <<< 3).extractLsb' (8 * (k.val - 56)) 8) →
    exec .final s = .next { s with h := compress s.h block, n := 0, buf := [], fin := true,
                                   digest := some (ser (compress s.h block)) }

/-- 42_finalization.md R162, R166, case N0 >= 56: two blocks, the first PB, 0x80 and zeros up to offset 63, the second 56 zeros and the
bit length; "H after the first block is the input of the second". -/
def Obligations.FinalCompressesTwoPaddedBlocks : Prop :=
  ∀ (s : State) (first second : Block), s.err = false → s.fin = false → s.BufferIsPending → 56 ≤ s.n.toNat →
    (∀ k : Fin 64, first[k.val] =
      if k.val < s.n.toNat then (Memory.read s.buf k.val).getD 0 else if k.val = s.n.toNat then 0x80 else 0x00) →
    (∀ k : Fin 64, second[k.val] =
      if k.val < 56 then (0x00 : Byte) else (s.len <<< 3).extractLsb' (8 * (k.val - 56)) 8) →
    exec .final s = .next { s with h := compress (compress s.h first) second, n := 0, buf := [], fin := true,
                                   digest := some (ser (compress (compress s.h first) second)) }

/-- 42_finalization.md R169: state after FINAL: H the final chaining value, DIGEST = ser(H), PB empty, N = 0, LEN unchanged, FIN = 1,
DVALID = 1, ERR = 0. -/
def Obligations.StateAfterFinal : Prop :=
  ∀ s : State, s.err = false → s.fin = false →
    ∃ t, exec .final s = .next t ∧ t.h = (State.emitAll (pad s.n.toNat s.len) s).h ∧ t.digest = some (ser t.h) ∧ t.pending = [] ∧ t.buf = [] ∧ t.n = 0 ∧ t.len = s.len ∧
      t.fin = true ∧ t.dvalid = true ∧ t.err = false

/-- 42_finalization.md R163: FINALR latches the digest of the stream absorbed before it, the one FINAL would latch, and only then
restores the initial hashing state; FIN stays 0, DVALID is set, all else stays. -/
def Obligations.FinalrLatchesTheDigestThenReinitialises : Prop :=
  ∀ s : State, s.err = false → s.fin = false →
    ∃ u, exec .final s = .next u ∧ u.digest = some (ser u.h) ∧
      exec .finalr s = .next { s with h := ⟨0x67452301, 0xEFCDAB89, 0x98BADCFE, 0x10325476, 0xC3D2E1F0⟩, n := 0, buf := [],
                                      len := 0, digest := u.digest }

/-- 42_finalization.md R170: "on every state with ERR = 0 and FIN = 0, FINALR and FINAL; INIT leave the same state" and the same port
values. -/
def Obligations.FinalrEqualsFinalThenInit : Prop :=
  ∀ s : State, s.err = false → s.fin = false →
    ∃ t u, execAll [.finalr] s = .next t ∧ execAll [.final, .init] s = .next u ∧ t = u ∧ t.outPorts = u.outPorts

/-- 10_state.md R32, R33, 70_reset_and_hazards.md R241: DIGEST is written only by FINAL and FINALR, with ser of the H the padding leaves;
PUSH, INIT and CTXLOAD leave it, and a fault clears DVALID. -/
def Obligations.DigestLatchIsWrittenOnlyByFinalization : Prop :=
  ∀ (s t : State) (i : Instr), exec i s = .next t →
    t.digest = s.digest ∨ (s.err = false ∧ t.err = true ∧ t.digest = none) ∨
    ((i = .final ∨ i = .finalr) ∧ s.err = false ∧ s.fin = false ∧
      t.digest = some (ser (State.emitAll (pad s.n.toNat s.len) s).h))

/-- 10_state.md R28, 41_buffer_commands.md R148, 42_finalization.md R164, R247: the phases of the internal sequencer, run from dispatch,
come back to IDLE within 80 phases in exactly the state the command leaves. The micro-machine is the model's reading of the phase
tables (log entry 8); for CTXLOAD, whose phase LOADCTX no table describes, it is the model's choice (log entry 10). -/
def Obligations.SequencerPhasesRefineEveryCommand : Prop :=
  ∀ (i : Instr) (s : State), ∃ k, k ≤ 80 ∧ (Seq.run k (Seq.start i s)).phase = .idle ∧
    exec i s = .next (Seq.run k (Seq.start i s)).st

/-- 42_finalization.md R165, 41_buffer_commands.md R149, 70_reset_and_hazards.md R246: how often a command invokes the Compression Engine:
PUSH once when N = 63 and else never; FINAL and FINALR once when N <= 55 and else twice; INIT and CTXLOAD never. -/
def Obligations.CompressionsPerCommand : Prop :=
  ∀ (i : Instr) (s : State), s.err = false → s.fin = false →
    ∃ k, k ≤ 80 ∧ (Seq.run k (Seq.start i s)).phase = .idle ∧
      (Seq.run k (Seq.start i s)).compressions =
        match i with
        | .init => 0
        | .push _ => if s.n.toNat = 63 then 1 else 0
        | .final => if s.n.toNat ≤ 55 then 1 else 2
        | .finalr => if s.n.toNat ≤ 55 then 1 else 2
        | .ctxload => 0

/-! ### CTXLOAD and the context port -/

/-- 43_context.md R184: CTXLOAD of a valid image, on the bits of `ctx_in`: H from words 0..4, LEN from words 5 and 6, N from word 7, the
first N' buffer bytes stored at offsets 0..N'-1 and no other byte, FIN <- 0; ERR, ERRCODE, DVALID, DIGEST stay. -/
def Obligations.CtxloadReplacesTheHashingState : Prop :=
  ∀ s : State, s.err = false → s.pins.ctxIn.extractLsb' 230 26 = 0 →
    s.pins.ctxIn.extractLsb' 224 6 = s.pins.ctxIn.extractLsb' 160 6 →
    ∃ m, exec .ctxload s = .next { s with
        h := ⟨s.pins.ctxIn.extractLsb' 0 32, s.pins.ctxIn.extractLsb' 32 32, s.pins.ctxIn.extractLsb' 64 32,
              s.pins.ctxIn.extractLsb' 96 32, s.pins.ctxIn.extractLsb' 128 32⟩
        n := s.pins.ctxIn.extractLsb' 224 6, buf := m, len := s.pins.ctxIn.extractLsb' 160 64, fin := false } ∧
      ∀ k, Memory.read m k =
        if k < (s.pins.ctxIn.extractLsb' 224 6).toNat then some (s.pins.ctxIn.extractLsb' (256 + 8 * k) 8) else none

/-- 60_exceptions.md R205: BAD_CONTEXT is raised by CTXLOAD when word 7 bits [31:6] are not zero or word 7 bits [5:0] differ from word 5
bits [5:0], with the effects of R204 and no other, and by nothing else. -/
def Obligations.BadContextIsRaisedExactlyOnAnInvalidImage : Prop :=
  (∀ s : State, s.err = false →
    (s.pins.ctxIn.extractLsb' 230 26 ≠ 0 ∨ s.pins.ctxIn.extractLsb' 224 6 ≠ s.pins.ctxIn.extractLsb' 160 6) →
    ∃ t, exec .ctxload s = .next t ∧ t.err = true ∧ t.errCode = .badContext ∧ t.dvalid = false ∧
      t.h = s.h ∧ t.n = s.n ∧ t.buf = s.buf ∧ t.len = s.len ∧ t.fin = s.fin) ∧
  (∀ (s t : State) (i : Instr), exec i s = .next t → t.errCode = .badContext → s.errCode ≠ .badContext →
    i = .ctxload ∧
    (s.pins.ctxIn.extractLsb' 230 26 ≠ 0 ∨ s.pins.ctxIn.extractLsb' 224 6 ≠ s.pins.ctxIn.extractLsb' 160 6))

/-- 43_context.md R181: the layout of `ctx_out`: H[i] on word i, LEN on words 5 and 6, N on word 7 bits [5:0], 0 on its bits [31:6], and
"buffer byte k (k = 0..63) is on port bits [256 + 8k + 7 : 256 + 8k], it is PB[k] for k < N and 0x00 for k >= N". -/
def Obligations.ContextPortShowsTheHashingState : Prop :=
  ∀ s : State, s.BufferIsPending →
    (∀ i : Fin 5, s.ctxOut.extractLsb' (32 * i.val) 32 = s.h.word i) ∧
    s.ctxOut.extractLsb' 160 32 = s.len.extractLsb' 0 32 ∧ s.ctxOut.extractLsb' 192 32 = s.len.extractLsb' 32 32 ∧
    s.ctxOut.extractLsb' 224 6 = s.n ∧ s.ctxOut.extractLsb' 230 26 = 0 ∧
    ∀ k, k < 64 → s.ctxOut.extractLsb' (256 + 8 * k) 8 =
      if k < s.n.toNat then (Memory.read s.buf k).getD 0 else 0x00

/-- 43_context.md R182, 10_state.md R35: `ctx_out` is a function of (H, PB, LEN) alone and it is injective. -/
def Obligations.ContextPortIsInjectiveInTheHashingState : Prop :=
  ∀ s t : State, s.BufferIsPending → t.BufferIsPending →
    (s.ctxOut = t.ctxOut ↔ s.h = t.h ∧ s.n = t.n ∧ s.buf = t.buf ∧ s.len = t.len)

/-- 43_context.md R186: buffer bytes of `ctx_in` at offsets >= N' are neither checked nor stored: an image that differs only in them does
the same; after a successful CTXLOAD `ctx_out` equals the image with those bytes cleared, and equals the image exactly when they
were zero. -/
def Obligations.LoadedImageReadsBackWithUnusedBytesCleared : Prop :=
  (∀ (s : State) (v : BitVec 768), v.extractLsb' 0 256 = s.pins.ctxIn.extractLsb' 0 256 →
    (∀ k, k < (v.extractLsb' 224 6).toNat → v.extractLsb' (256 + 8 * k) 8 = s.pins.ctxIn.extractLsb' (256 + 8 * k) 8) →
    exec .ctxload (s.driveCtx v) = afterNext (exec .ctxload s) (State.driveCtx v)) ∧
  ∀ s t : State, s.err = false → exec .ctxload s = .next t → t.err = false →
    t.ctxOut.extractLsb' 0 256 = s.pins.ctxIn.extractLsb' 0 256 ∧
    (∀ k, k < 64 → t.ctxOut.extractLsb' (256 + 8 * k) 8 =
      if k < t.n.toNat then s.pins.ctxIn.extractLsb' (256 + 8 * k) 8 else 0x00) ∧
    (t.ctxOut = s.pins.ctxIn ↔ ∀ k, t.n.toNat ≤ k → k < 64 → s.pins.ctxIn.extractLsb' (256 + 8 * k) 8 = 0x00)

/-- 43_context.md R188: in a state with ERR = 0 and FIN = 0, CTXLOAD with `ctx_in` = the current `ctx_out` changes nothing. -/
def Obligations.LoadingTheOwnImageChangesNothing : Prop :=
  ∀ s : State, s.Inv → s.err = false → s.fin = false → s.pins.ctxIn = s.ctxOut → exec .ctxload s = .next s

/-- 43_context.md R189: the image of a FINALIZED engine is valid only when LEN is a multiple of 64; else CTXLOAD of it raises
BAD_CONTEXT. -/
def Obligations.FinalizedImageIsLoadableOnlyAtBlockMultiples : Prop :=
  ∀ s : State, s.Inv → s.err = false → s.fin = true → s.pins.ctxIn = s.ctxOut →
    (s.len.toNat % 64 = 0 → exec .ctxload s = .next { s with fin := false }) ∧
    (s.len.toNat % 64 ≠ 0 →
      ∃ t, exec .ctxload s = .next t ∧ t.err = true ∧ t.errCode = .badContext ∧ t.dvalid = false ∧
        t.h = s.h ∧ t.n = s.n ∧ t.buf = s.buf ∧ t.len = s.len ∧ t.fin = s.fin)

/-- 43_context.md R187: a clone has the source's hashing state, FIN = 0 and its own digest latch, and from then on any command sequence
free of CTXLOAD produces in it the same H, PB, LEN, FIN and the same digests as in the source. -/
def Obligations.CloneBehavesAsItsSource : Prop :=
  ∀ src dst : State, src.Inv → src.err = false → src.fin = false → dst.err = false →
    ∃ t, cloneInto dst src = .next t ∧ t.h = src.h ∧ t.n = src.n ∧ t.buf = src.buf ∧ t.len = src.len ∧ t.fin = false ∧
      t.err = false ∧ t.digest = dst.digest ∧
      ∀ is : List Instr, .ctxload ∉ is → ∃ s' t', execAll is src = .next s' ∧ execAll is t = .next t' ∧
        t'.h = s'.h ∧ t'.n = s'.n ∧ t'.buf = s'.buf ∧ t'.len = s'.len ∧ t'.fin = s'.fin ∧ t'.err = s'.err ∧
        (.final ∈ is ∨ .finalr ∈ is → t'.digest = s'.digest)

/-- 30_encoding.md R105: COMPRESS h, block: CTXLOAD img0(h); INPUT block; afterwards `ctx_out` words 0..4 hold compress(h, block), N = 0
and LEN = 64. -/
def Obligations.RawCompressionThroughTheContextPort : Prop :=
  ∀ (s : State) (h : HashState) (block : Block), s.err = false → s.pins.ctxIn = rawImage h →
    ∃ t, execAll (compressCmds block) s = .next t ∧
      t = { s with h := compress h block, n := 0, buf := [], len := 64, fin := false } ∧
      ∀ i : Fin 5, t.ctxOut.extractLsb' (32 * i.val) 32 = (compress h block).word i

/-! ### Streams and digests -/

/-- 41_buffer_commands.md R146: state as a function of the stream: from the initial hashing state, INPUT S leaves H chained over the
whole blocks of S, the rest of S in the Pending Buffer, N = L mod 64, LEN = L modulo 2^64, and everything else as it was. -/
def Obligations.StateIsAFunctionOfTheStream : Prop :=
  ∀ (s : State) (stream : List Byte), s.err = false → s.fin = false → s.InitialHashing →
    ∃ t, execAll (inputCmds stream) s = .next t ∧
      t.h = chain iv stream (stream.length / 64) ∧ t.pending = stream.drop (64 * (stream.length / 64)) ∧
      t.n.toNat = stream.length % 64 ∧ t.len = BitVec.ofNat 64 stream.length ∧ t.BufferIsPending ∧
      t = { s with h := t.h, n := t.n, buf := t.buf, len := t.len }

/-- 41_buffer_commands.md R145, R147: chunking invariance for the whole state, empty pieces included; an empty INPUT changes nothing. -/
def Obligations.ChunkingNeverMatters : Prop :=
  (∀ (pieces : List (List Byte)) (s : State),
    (pieces.map inputCmds).flatten = inputCmds pieces.flatten ∧
    execAll (pieces.map inputCmds).flatten s = execAll (inputCmds pieces.flatten) s ∧
    execAll ((pieces.map inputCmds).flatten ++ [.final]) s = execAll (inputCmds pieces.flatten ++ [.final]) s) ∧
  (∀ s : State, execAll (inputCmds []) s = .next s)

/-- 42_finalization.md R171: from the initial hashing state INPUT S; FINAL, or INPUT S; FINALR, leaves DVALID = 1 and DIGEST =
RMD160(S) = ser(h_t), where S ++ pad has exactly t blocks. -/
def Obligations.DigestIsRmd160OfTheStream : Prop :=
  ∀ (s : State) (stream : List Byte), s.err = false → s.fin = false → s.InitialHashing →
    (padded stream).length = 64 * paddedBlocks stream.length ∧
    (∃ t, execAll (inputCmds stream ++ [.final]) s = .next t ∧ t.dvalid = true ∧ t.digest = some (rmd160 stream)) ∧
    (∃ t, execAll (inputCmds stream ++ [.finalr]) s = .next t ∧ t.dvalid = true ∧ t.digest = some (rmd160 stream))

/-- 30_encoding.md R103: HASH s, from any state not in FAULT, leaves `dvalid` = 1 and `digest` = RMD160(s); HASHR s does so from the
initial hashing state, in which RST, INIT and FINALR leave the engine. -/
def Obligations.HashPseudoCommandsYieldTheDigest : Prop :=
  (∀ (s : State) (stream : List Byte), s.err = false →
    ∃ t, execAll (hashCmds stream) s = .next t ∧ t.dvalid = true ∧ t.digestBytes = rmd160 stream) ∧
  (∀ (s : State) (stream : List Byte), s.err = false → s.fin = false → s.InitialHashing →
    ∃ t, execAll (hashrCmds stream) s = .next t ∧ t.dvalid = true ∧ t.digestBytes = rmd160 stream ∧ t.InitialHashing) ∧
  (∀ s : State, s.pins.rst = true → ∃ t, step s = .next t ∧ t.err = false ∧ t.fin = false ∧ t.InitialHashing) ∧
  (∀ s : State, s.err = false → ∃ t, exec .init s = .next t ∧ t.err = false ∧ t.fin = false ∧ t.InitialHashing) ∧
  (∀ s : State, s.err = false → s.fin = false →
    ∃ t, exec .finalr s = .next t ∧ t.err = false ∧ t.fin = false ∧ t.InitialHashing)

/-- 42_finalization.md R173: FINALR leaves initial() and FIN = 0; hashing a second message after it yields the same digest as a fresh
engine, and nothing of the first message's content or length influences it. -/
def Obligations.SecondMessageIsNotInfluencedByTheFirst : Prop :=
  ∀ (s : State) (stream : List Byte), s.err = false → s.fin = false →
    (∃ r, exec .finalr s = .next r ∧ r.InitialHashing ∧ r.fin = false) ∧
    ∃ t u, execAll (.finalr :: (inputCmds stream ++ [.final])) s = .next t ∧
      execAll (inputCmds stream ++ [.final]) State.reset = .next u ∧
      t.digest = u.digest ∧ t.digest = some (rmd160 stream) ∧ t.h = u.h ∧ t.n = u.n ∧ t.buf = u.buf ∧ t.len = u.len ∧ t.fin = u.fin

/-- 43_context.md R190: clone independence on one instance: INIT; INPUT P; SAVE img; INPUT C1; FINAL latches RMD160(P ++ C1), then
CTXLOAD img; INPUT C2; FINAL latches RMD160(P ++ C2). -/
def Obligations.ForkedStreamsYieldTheirOwnDigests : Prop :=
  ∀ (s : State) (p c₁ c₂ : List Byte), s.err = false →
    ∃ saved t₁ t₂, execAll (.init :: inputCmds p) s = .next saved ∧
      execAll (inputCmds c₁ ++ [.final]) saved = .next t₁ ∧ t₁.digest = some (rmd160 (p ++ c₁)) ∧
      execAll (.ctxload :: (inputCmds c₂ ++ [.final])) (t₁.driveCtx saved.ctxOut) = .next t₂ ∧
      t₂.digest = some (rmd160 (p ++ c₂))

/-! ### The Compression Engine -/

/-- 40_compression.md R112: the five Boolean functions, bitwise; their truth tables, whose entries stand in the order xyz = 000, 001, ..,
111; and the example. -/
def Obligations.BooleanFunctionsHaveTheStatedTruthTables : Prop :=
  (∀ (x y z : Word) (i : Nat), i < 32 →
    let entry := 4 * (x.getLsbD i).toNat + 2 * (y.getLsbD i).toNat + (z.getLsbD i).toNat
    ((BoolFn.f1.eval x y z).getLsbD i).toNat = [0, 1, 1, 0, 1, 0, 0, 1].getD entry 0 ∧
    ((BoolFn.f2.eval x y z).getLsbD i).toNat = [0, 1, 0, 1, 0, 0, 1, 1].getD entry 0 ∧
    ((BoolFn.f3.eval x y z).getLsbD i).toNat = [1, 0, 0, 1, 1, 0, 1, 0].getD entry 0 ∧
    ((BoolFn.f4.eval x y z).getLsbD i).toNat = [0, 0, 1, 0, 0, 1, 1, 1].getD entry 0 ∧
    ((BoolFn.f5.eval x y z).getLsbD i).toNat = [1, 0, 1, 1, 0, 1, 0, 0].getD entry 0) ∧
  (∀ x y z : Word,
    BoolFn.f1.eval x y z = x ^^^ y ^^^ z ∧ BoolFn.f2.eval x y z = (x &&& y) ||| (~~~x &&& z) ∧
    BoolFn.f3.eval x y z = (x ||| ~~~y) ^^^ z ∧ BoolFn.f4.eval x y z = (x &&& z) ||| (y &&& ~~~z) ∧
    BoolFn.f5.eval x y z = x ^^^ (y ||| ~~~z)) ∧
  [BoolFn.f1, .f2, .f3, .f4, .f5].map (fun f => f.eval 0x12345678 0x9ABCDEF0 0x0F1E2D3C) =
    [0x8796A5B4, 0x1F3E7F74, 0x78695A43, 0x92B4D6F8, 0xE8C9888B]

/-- 40_compression.md R129: the per-step listing of both lines: function, constant, message-word index, rotation. -/
def Obligations.LineTablesAreThePerStepListing : Prop :=
  leftRows =
    ([⟨.f1, 0x00000000, 0, 11⟩, ⟨.f1, 0x00000000, 1, 14⟩, ⟨.f1, 0x00000000, 2, 15⟩, ⟨.f1, 0x00000000, 3, 12⟩,
       ⟨.f1, 0x00000000, 4, 5⟩, ⟨.f1, 0x00000000, 5, 8⟩, ⟨.f1, 0x00000000, 6, 7⟩, ⟨.f1, 0x00000000, 7, 9⟩,
       ⟨.f1, 0x00000000, 8, 11⟩, ⟨.f1, 0x00000000, 9, 13⟩, ⟨.f1, 0x00000000, 10, 14⟩, ⟨.f1, 0x00000000, 11, 15⟩,
       ⟨.f1, 0x00000000, 12, 6⟩, ⟨.f1, 0x00000000, 13, 7⟩, ⟨.f1, 0x00000000, 14, 9⟩, ⟨.f1, 0x00000000, 15, 8⟩]
      ++ [⟨.f2, 0x5A827999, 7, 7⟩, ⟨.f2, 0x5A827999, 4, 6⟩, ⟨.f2, 0x5A827999, 13, 8⟩, ⟨.f2, 0x5A827999, 1, 13⟩,
       ⟨.f2, 0x5A827999, 10, 11⟩, ⟨.f2, 0x5A827999, 6, 9⟩, ⟨.f2, 0x5A827999, 15, 7⟩, ⟨.f2, 0x5A827999, 3, 15⟩,
       ⟨.f2, 0x5A827999, 12, 7⟩, ⟨.f2, 0x5A827999, 0, 12⟩, ⟨.f2, 0x5A827999, 9, 15⟩, ⟨.f2, 0x5A827999, 5, 9⟩,
       ⟨.f2, 0x5A827999, 2, 11⟩, ⟨.f2, 0x5A827999, 14, 7⟩, ⟨.f2, 0x5A827999, 11, 13⟩, ⟨.f2, 0x5A827999, 8, 12⟩]
      ++ [⟨.f3, 0x6ED9EBA1, 3, 11⟩, ⟨.f3, 0x6ED9EBA1, 10, 13⟩, ⟨.f3, 0x6ED9EBA1, 14, 6⟩, ⟨.f3, 0x6ED9EBA1, 4, 7⟩,
       ⟨.f3, 0x6ED9EBA1, 9, 14⟩, ⟨.f3, 0x6ED9EBA1, 15, 9⟩, ⟨.f3, 0x6ED9EBA1, 8, 13⟩, ⟨.f3, 0x6ED9EBA1, 1, 15⟩,
       ⟨.f3, 0x6ED9EBA1, 2, 14⟩, ⟨.f3, 0x6ED9EBA1, 7, 8⟩, ⟨.f3, 0x6ED9EBA1, 0, 13⟩, ⟨.f3, 0x6ED9EBA1, 6, 6⟩,
       ⟨.f3, 0x6ED9EBA1, 13, 5⟩, ⟨.f3, 0x6ED9EBA1, 11, 12⟩, ⟨.f3, 0x6ED9EBA1, 5, 7⟩, ⟨.f3, 0x6ED9EBA1, 12, 5⟩]
      ++ [⟨.f4, 0x8F1BBCDC, 1, 11⟩, ⟨.f4, 0x8F1BBCDC, 9, 12⟩, ⟨.f4, 0x8F1BBCDC, 11, 14⟩, ⟨.f4, 0x8F1BBCDC, 10, 15⟩,
       ⟨.f4, 0x8F1BBCDC, 0, 14⟩, ⟨.f4, 0x8F1BBCDC, 8, 15⟩, ⟨.f4, 0x8F1BBCDC, 12, 9⟩, ⟨.f4, 0x8F1BBCDC, 4, 8⟩,
       ⟨.f4, 0x8F1BBCDC, 13, 9⟩, ⟨.f4, 0x8F1BBCDC, 3, 14⟩, ⟨.f4, 0x8F1BBCDC, 7, 5⟩, ⟨.f4, 0x8F1BBCDC, 15, 6⟩,
       ⟨.f4, 0x8F1BBCDC, 14, 8⟩, ⟨.f4, 0x8F1BBCDC, 5, 6⟩, ⟨.f4, 0x8F1BBCDC, 6, 5⟩, ⟨.f4, 0x8F1BBCDC, 2, 12⟩]
      ++ [⟨.f5, 0xA953FD4E, 4, 9⟩, ⟨.f5, 0xA953FD4E, 0, 15⟩, ⟨.f5, 0xA953FD4E, 5, 5⟩, ⟨.f5, 0xA953FD4E, 9, 11⟩,
       ⟨.f5, 0xA953FD4E, 7, 6⟩, ⟨.f5, 0xA953FD4E, 12, 8⟩, ⟨.f5, 0xA953FD4E, 2, 13⟩, ⟨.f5, 0xA953FD4E, 10, 12⟩,
       ⟨.f5, 0xA953FD4E, 14, 5⟩, ⟨.f5, 0xA953FD4E, 1, 12⟩, ⟨.f5, 0xA953FD4E, 3, 13⟩, ⟨.f5, 0xA953FD4E, 8, 14⟩,
       ⟨.f5, 0xA953FD4E, 11, 11⟩, ⟨.f5, 0xA953FD4E, 6, 8⟩, ⟨.f5, 0xA953FD4E, 15, 5⟩, ⟨.f5, 0xA953FD4E, 13, 6⟩] : List StepRow) ∧
  rightRows =
    ([⟨.f5, 0x50A28BE6, 5, 8⟩, ⟨.f5, 0x50A28BE6, 14, 9⟩, ⟨.f5, 0x50A28BE6, 7, 9⟩, ⟨.f5, 0x50A28BE6, 0, 11⟩,
       ⟨.f5, 0x50A28BE6, 9, 13⟩, ⟨.f5, 0x50A28BE6, 2, 15⟩, ⟨.f5, 0x50A28BE6, 11, 15⟩, ⟨.f5, 0x50A28BE6, 4, 5⟩,
       ⟨.f5, 0x50A28BE6, 13, 7⟩, ⟨.f5, 0x50A28BE6, 6, 7⟩, ⟨.f5, 0x50A28BE6, 15, 8⟩, ⟨.f5, 0x50A28BE6, 8, 11⟩,
       ⟨.f5, 0x50A28BE6, 1, 14⟩, ⟨.f5, 0x50A28BE6, 10, 14⟩, ⟨.f5, 0x50A28BE6, 3, 12⟩, ⟨.f5, 0x50A28BE6, 12, 6⟩]
      ++ [⟨.f4, 0x5C4DD124, 6, 9⟩, ⟨.f4, 0x5C4DD124, 11, 13⟩, ⟨.f4, 0x5C4DD124, 3, 15⟩, ⟨.f4, 0x5C4DD124, 7, 7⟩,
       ⟨.f4, 0x5C4DD124, 0, 12⟩, ⟨.f4, 0x5C4DD124, 13, 8⟩, ⟨.f4, 0x5C4DD124, 5, 9⟩, ⟨.f4, 0x5C4DD124, 10, 11⟩,
       ⟨.f4, 0x5C4DD124, 14, 7⟩, ⟨.f4, 0x5C4DD124, 15, 7⟩, ⟨.f4, 0x5C4DD124, 8, 12⟩, ⟨.f4, 0x5C4DD124, 12, 7⟩,
       ⟨.f4, 0x5C4DD124, 4, 6⟩, ⟨.f4, 0x5C4DD124, 9, 15⟩, ⟨.f4, 0x5C4DD124, 1, 13⟩, ⟨.f4, 0x5C4DD124, 2, 11⟩]
      ++ [⟨.f3, 0x6D703EF3, 15, 9⟩, ⟨.f3, 0x6D703EF3, 5, 7⟩, ⟨.f3, 0x6D703EF3, 1, 15⟩, ⟨.f3, 0x6D703EF3, 3, 11⟩,
       ⟨.f3, 0x6D703EF3, 7, 8⟩, ⟨.f3, 0x6D703EF3, 14, 6⟩, ⟨.f3, 0x6D703EF3, 6, 6⟩, ⟨.f3, 0x6D703EF3, 9, 14⟩,
       ⟨.f3, 0x6D703EF3, 11, 12⟩, ⟨.f3, 0x6D703EF3, 8, 13⟩, ⟨.f3, 0x6D703EF3, 12, 5⟩, ⟨.f3, 0x6D703EF3, 2, 14⟩,
       ⟨.f3, 0x6D703EF3, 10, 13⟩, ⟨.f3, 0x6D703EF3, 0, 13⟩, ⟨.f3, 0x6D703EF3, 4, 7⟩, ⟨.f3, 0x6D703EF3, 13, 5⟩]
      ++ [⟨.f2, 0x7A6D76E9, 8, 15⟩, ⟨.f2, 0x7A6D76E9, 6, 5⟩, ⟨.f2, 0x7A6D76E9, 4, 8⟩, ⟨.f2, 0x7A6D76E9, 1, 11⟩,
       ⟨.f2, 0x7A6D76E9, 3, 14⟩, ⟨.f2, 0x7A6D76E9, 11, 14⟩, ⟨.f2, 0x7A6D76E9, 15, 6⟩, ⟨.f2, 0x7A6D76E9, 0, 14⟩,
       ⟨.f2, 0x7A6D76E9, 5, 6⟩, ⟨.f2, 0x7A6D76E9, 12, 9⟩, ⟨.f2, 0x7A6D76E9, 2, 12⟩, ⟨.f2, 0x7A6D76E9, 13, 9⟩,
       ⟨.f2, 0x7A6D76E9, 9, 12⟩, ⟨.f2, 0x7A6D76E9, 7, 5⟩, ⟨.f2, 0x7A6D76E9, 10, 15⟩, ⟨.f2, 0x7A6D76E9, 14, 8⟩]
      ++ [⟨.f1, 0x00000000, 12, 8⟩, ⟨.f1, 0x00000000, 15, 5⟩, ⟨.f1, 0x00000000, 10, 12⟩, ⟨.f1, 0x00000000, 4, 9⟩,
       ⟨.f1, 0x00000000, 1, 12⟩, ⟨.f1, 0x00000000, 5, 5⟩, ⟨.f1, 0x00000000, 8, 14⟩, ⟨.f1, 0x00000000, 7, 6⟩,
       ⟨.f1, 0x00000000, 6, 8⟩, ⟨.f1, 0x00000000, 2, 13⟩, ⟨.f1, 0x00000000, 13, 6⟩, ⟨.f1, 0x00000000, 14, 5⟩,
       ⟨.f1, 0x00000000, 0, 15⟩, ⟨.f1, 0x00000000, 3, 13⟩, ⟨.f1, 0x00000000, 9, 11⟩, ⟨.f1, 0x00000000, 11, 11⟩] : List StepRow)

/-- 40_compression.md R128: each row of r and r' is a permutation of 0..15, so a compression uses every message word ten times; row q+1 is
rho applied to row q, with rho row 2 of r and pi(i) = (9i + 5) mod 16 row 1 of r'. -/
def Obligations.SelectionTablesArePermutationsByRho : Prop :=
  let rho : List (Fin 16) := [7, 4, 13, 1, 10, 6, 15, 3, 12, 0, 9, 5, 2, 14, 11, 8]
  (∀ row ∈ leftSelect ++ rightSelect, row.length = 16 ∧ ∀ i : Fin 16, row.count i = 1) ∧
  leftSelect.length = 5 ∧ rightSelect.length = 5 ∧ leftSelect.getD 1 [] = rho ∧
  (∀ i : Fin 16, (leftRows ++ rightRows).countP (fun row => row.r = i) = 10) ∧
  rightSelect.getD 0 [] = (List.range 16).map (fun i => Fin.ofNat 16 (9 * i + 5)) ∧
  (∀ q : Fin 4, leftSelect.getD (q.val + 1) [] = (leftSelect.getD q.val []).map fun i => rho.getD i.val 0) ∧
  (∀ q : Fin 4, rightSelect.getD (q.val + 1) [] = (rightSelect.getD q.val []).map fun i => rho.getD i.val 0)

/-- 40_compression.md R124, 95_test_vectors.md section 4.5: compress on the traced block of the empty message, and on the chaining value
(1, 2, 3, 4, 5) with the block 40 41 .. 7f. -/
def Obligations.CompressGivesTheKnownAnswers : Prop :=
  compress iv (blockAt (0x80 :: List.replicate 63 0x00) 0) =
    ⟨0xA585119C, 0x54FCE9C5, 0x97082861, 0x48F5E87E, 0x318D25B2⟩ ∧
  compress ⟨1, 2, 3, 4, 5⟩ (blockAt ((List.range 64).map fun i => BitVec.ofNat 8 (0x40 + i)) 0) =
    ⟨0xC5F50CD5, 0xA9BCAF1E, 0x80A9BF30, 0xFDF79B0A, 0xE90A58CC⟩

/-- 40_compression.md R127: the Compression Engine at its ports: `h_out` carries compress of what `h_in` and `block_in` carry, and message
word X[i] is `block_in[32i+31:32i]`. -/
def Obligations.CompressionPortsCarryCompress : Prop :=
  ∀ (h : HashState) (block : Block),
    compressPorts (hashToPort h) (BitVec.ofNat 512 (packBytes block.toList)) = hashToPort (compress h block) ∧
    (∀ i : Fin 5, (hashToPort h).extractLsb' (32 * i.val) 32 = h.word i) ∧
    (∀ i : Fin 16, (BitVec.ofNat 512 (packBytes block.toList)).extractLsb' (32 * i.val) 32 = msgWord block i)

/-! ### Output ports -/

/-- 30_encoding.md R97: the fields of `status`, the values a host can see, and that each of them is reachable. -/
def Obligations.StatusPortShowsTheFlags : Prop :=
  (∀ s : State, s.status.getLsbD 0 = s.fin ∧ s.status.getLsbD 1 = s.err ∧ s.status.getLsbD 2 = s.dvalid ∧
    s.status.getLsbD 3 = false ∧ s.status.extractLsb' 4 2 = s.errCode.code ∧ s.status.extractLsb' 6 2 = 0) ∧
  (∀ s : State, s.Inv → s.status ∈ [0x00, 0x04, 0x05, 0x12, 0x13, 0x23, 0x32, 0x33]) ∧
  (∀ s : State, s.Inv → s.err = false → s.fin = true → s.dvalid = true) ∧
  (∀ v : BitVec 8, v ∈ [0x00, 0x04, 0x05, 0x12, 0x13, 0x23, 0x32, 0x33] → ∃ s, Reachable s ∧ s.status = v)

/-- 30_encoding.md R98, 42_finalization.md R167, 20_memory.md R53: with the digest latched from chaining value h, `digest[32i+31:32i]` =
h[i], digest byte 4i+k = h[i][8k+7:8k], and the port as one integer is h[0] + 2^32 h[1] + 2^64 h[2] + 2^96 h[3] + 2^128 h[4]. -/
def Obligations.DigestPortShowsTheChainingValue : Prop :=
  ∀ (s : State) (h : HashState), s.digest = some (ser h) →
    (∀ i : Fin 5, s.digestPort.extractLsb' (32 * i.val) 32 = h.word i) ∧
    (∀ (i : Fin 5) (k : Fin 4),
      s.digestPort.extractLsb' (8 * (4 * i.val + k.val)) 8 = (h.word i).extractLsb' (8 * k.val) 8) ∧
    s.digestPort.toNat = h.h0.toNat + 2 ^ 32 * h.h1.toNat + 2 ^ 64 * h.h2.toNat + 2 ^ 96 * h.h3.toNat + 2 ^ 128 * h.h4.toNat

/-! ### The whole machine -/

/-- 70_reset_and_hazards.md R242, U12: `ctx_in` is read when a CTXLOAD is accepted and "at all other times it is ignored": whatever is on
it, every other command, legal or reserved, and every quiet step does the same. -/
def Obligations.ContextInputIsReadOnlyByCtxload : Prop :=
  (∀ (s : State) (v : BitVec 768) (i : Instr), i ≠ .ctxload →
    exec i (s.driveCtx v) = afterNext (exec i s) (State.driveCtx v)) ∧
  (∀ (s : State) (v : BitVec 768), s.pins.cmd ≠ 0x0500 ∨ s.pins.cmdValid = false ∨ s.pins.rst = true →
    samplePins (s.driveCtx v) = afterNext (samplePins s) (State.driveCtx v))

/-- The invariant `State.Inv` (10_state.md R23, R24, R31, R32, R37, R40; 30_encoding.md R97) is kept by every step from every state that
meets it, whatever the host drives. -/
def Obligations.InvariantIsKeptByEveryStep : Prop :=
  ∀ s t : State, s.Inv → step s = .next t → t.Inv

/-- The invariant holds at reset (10_state.md R36). -/
def Obligations.InvariantHoldsAtReset : Prop := State.reset.Inv

/-- 10_state.md R24: in every state reachable from reset, "if FIN = 0 then N = LEN mod 64; if FIN = 1 then N = 0", whatever the host
drives on the ports. -/
def Obligations.FillCountIsTheLengthModulo64 : Prop :=
  ∀ t : State, Reachable t →
    (t.fin = false → t.n.toNat = t.len.toNat % 64) ∧ (t.fin = true → t.n.toNat = 0)

/-- 10_state.md R22: who writes H: `rst`, INIT and FINALR with the constants, CTXLOAD with words 0..4 of `ctx_in`, block completion inside
PUSH (one block) and FINAL (one block or two) with compress; everything else nothing. -/
def Obligations.HashStateHasOnlyTheStatedWriters : Prop :=
  ∀ s t : State, step s = .next t → t.h ≠ s.h →
    (s.pins.rst = true ∧ t.h = iv) ∨
    (s.pins.rst = false ∧ s.pins.cmdValid = true ∧ s.err = false ∧ ∃ i, decode s.pins.cmd = .command i ∧
      match i with
      | .init => t.h = iv
      | .push b => s.fin = false ∧ s.n = 63 ∧ t.h = compress s.h (bufBlock (bufWrite s.buf 63 [b]))
      | .final => s.fin = false ∧ (s.BufferIsPending →
          t.h = chain s.h (s.pending ++ pad s.n.toNat s.len) (if s.n.toNat ≤ 55 then 1 else 2))
      | .finalr => s.fin = false ∧ t.h = iv
      | .ctxload => ∀ w : Fin 5, t.h.word w = s.pins.ctxIn.extractLsb' (32 * w.val) 32)

/-- 10_state.md R25: LEN is incremented by every accepted PUSH and never by padding, set to 0 by `rst`, INIT and FINALR, loaded by CTXLOAD;
FINAL, faults and ignored commands leave it. -/
def Obligations.LengthCounterHasOnlyTheStatedWriters : Prop :=
  ∀ s t : State, step s = .next t →
    if s.pins.rst = true then t.len = 0
    else if s.pins.cmdValid = false ∨ t.err = true then t.len = s.len
    else ∃ i, decode s.pins.cmd = .command i ∧
      match i with
      | .init => t.len = 0
      | .push _ => t.len = s.len + 1
      | .final => t.len = s.len
      | .finalr => t.len = 0
      | .ctxload => t.len = s.pins.ctxIn.extractLsb' 160 64

/-- 10_state.md R29 to R32, R40: FIN is set only by FINAL and cleared only by `rst`, INIT and CTXLOAD; ERR is cleared only by `rst`; ERRCODE
changes only with ERR; DVALID is set only by FINAL and FINALR and cleared only by `rst` and a fault. -/
def Obligations.FlagsHaveOnlyTheStatedWriters : Prop :=
  ∀ s t : State, step s = .next t →
    (s.fin = false → t.fin = true → s.pins.rst = false ∧ decode s.pins.cmd = .command .final) ∧
    (s.fin = true → t.fin = false →
      s.pins.rst = true ∨ decode s.pins.cmd = .command .init ∨ decode s.pins.cmd = .command .ctxload) ∧
    (s.err = true → t.err = false → s.pins.rst = true) ∧
    (t.errCode ≠ s.errCode → s.pins.rst = true ∨ (s.err = false ∧ t.err = true)) ∧
    (s.dvalid = false → t.dvalid = true →
      s.pins.rst = false ∧ (decode s.pins.cmd = .command .final ∨ decode s.pins.cmd = .command .finalr)) ∧
    (s.dvalid = true → t.dvalid = false → s.pins.rst = true ∨ (s.err = false ∧ t.err = true))
end

