-- ==== Sys2Proof/Laws/Memory.lean ====
section
/-! SUPPORT. The block buffer: read after write, every operation keeps the canonical form, and the buffer that holds a byte
sequence at offsets 0, 1, .. (`cellsFrom`), which is what the Pending Buffer is. -/

namespace Sys2Proof.Machine

/-- Read after write: the byte written at its own offset, every other offset as before. -/
theorem Memory.read_write (m : Memory) (k : Nat) (v : Byte) (j : Nat) :
    Memory.read (Memory.write m k v) j = if j = k then some v else Memory.read m j := by
  induction m with
  | nil => simp only [Memory.write, Memory.read]; split <;> split <;> simp_all
  | cons c m ih =>
    obtain ⟨a, b⟩ := c
    simp only [Memory.write]
    split
    · simp only [Memory.read]; split_ifs <;> first | rfl | (exfalso; omega)
    · split
      · subst k; simp only [Memory.read]; split_ifs <;> first | rfl | (exfalso; omega)
      · simp only [Memory.read, ih]; split_ifs <;> first | rfl | (exfalso; omega)

theorem Memory.mem_write (m : Memory) (k : Nat) (v : Byte) (c : Host.Cell) (hc : c ∈ Memory.write m k v) :
    c = (k, v) ∨ c ∈ m := by
  induction m with
  | nil => simpa [Memory.write] using hc
  | cons d m ih =>
    obtain ⟨a, b⟩ := d
    simp only [Memory.write] at hc
    split at hc
    · simpa using hc
    · split at hc
      · rcases List.mem_cons.1 hc with h | h
        · exact .inl h
        · exact .inr (by simp [h])
      · rcases List.mem_cons.1 hc with h | h
        · exact .inr (by simp [h])
        · rcases ih h with h | h
          · exact .inl h
          · exact .inr (by simp [h])

/-- The empty buffer is in canonical form. -/
theorem Memory.wf_nil : Memory.wf [] := ⟨List.Pairwise.nil, by simp⟩

/-- A write at an offset of the buffer keeps the canonical form. -/
theorem Memory.wf_write (m : Memory) (k : Nat) (v : Byte) (hk : k < 64) (hm : Memory.wf m) :
    Memory.wf (Memory.write m k v) := by
  refine ⟨?_, ?_⟩
  · have hp := hm.1
    clear hm
    induction m with
    | nil => simp [Memory.write]
    | cons c m ih =>
      obtain ⟨a, b⟩ := c
      rw [List.pairwise_cons] at hp
      simp only [Memory.write]
      split
      · rename_i h
        refine List.pairwise_cons.2 ⟨?_, List.pairwise_cons.2 hp⟩
        intro d hd
        rcases List.mem_cons.1 hd with rfl | hd
        · exact h
        · exact lt_trans h (hp.1 d hd)
      · split
        · rename_i h
          subst h
          exact List.pairwise_cons.2 hp
        · refine List.pairwise_cons.2 ⟨?_, ih hp.2⟩
          intro d hd
          rcases Memory.mem_write m k v d hd with rfl | hd
          · simp only; omega
          · exact hp.1 d hd
  · intro c hc
    rcases Memory.mem_write m k v c hc with rfl | hc
    · exact hk
    · exact hm.2 c hc

/-- BufWrite within the buffer keeps the canonical form. -/
theorem wf_bufWrite (m : Memory) (off : Nat) (bs : List Byte) (hb : off + bs.length ≤ 64) (hm : Memory.wf m) :
    Memory.wf (bufWrite m off bs) := by
  induction bs generalizing m off with
  | nil => exact hm
  | cons b bs ih =>
    simp only [List.length_cons] at hb
    exact ih _ _ (by omega) (Memory.wf_write m off b (by omega) hm)

/-- The cells that hold a byte sequence from an offset on. -/
def cellsFrom : Nat → List Byte → Memory
  | _, [] => []
  | off, b :: bs => (off, b) :: cellsFrom (off + 1) bs

theorem map_fst_cellsFrom (off : Nat) (bs : List Byte) : (cellsFrom off bs).map Prod.fst = List.range' off bs.length := by
  induction bs generalizing off with
  | nil => rfl
  | cons b bs ih => simp [cellsFrom, ih, List.range'_succ]

theorem read_cellsFrom (off : Nat) (bs : List Byte) (k : Nat) :
    Memory.read (cellsFrom off bs) k = if off ≤ k then bs[k - off]? else none := by
  induction bs generalizing off with
  | nil => simp [cellsFrom, Memory.read]
  | cons b bs ih =>
    simp only [cellsFrom, Memory.read, ih]
    by_cases h : off = k
    · subst h; simp
    · by_cases h2 : off ≤ k
      · rw [if_neg h, if_pos h2, if_pos (by omega), show k - off = (k - (off + 1)) + 1 by omega]; simp
      · rw [if_neg h, if_neg h2, if_neg (by omega)]

theorem write_cellsFrom (off : Nat) (bs : List Byte) (b : Byte) :
    Memory.write (cellsFrom off bs) (off + bs.length) b = cellsFrom off (bs ++ [b]) := by
  induction bs generalizing off with
  | nil => rfl
  | cons c bs ih =>
    simp only [cellsFrom, Memory.write, List.length_cons, List.cons_append]
    rw [if_neg (by omega), if_neg (by omega), show off + (bs.length + 1) = off + 1 + bs.length by omega, ih]

/-- Writing bytes after those a buffer holds appends them. -/
theorem bufWrite_cellsFrom (off : Nat) (bs cs : List Byte) :
    bufWrite (cellsFrom off bs) (off + bs.length) cs = cellsFrom off (bs ++ cs) := by
  induction cs generalizing bs with
  | nil => simp [bufWrite]
  | cons c cs ih =>
    simp only [bufWrite, write_cellsFrom]
    have := ih (bs ++ [c])
    simpa [Nat.add_assoc] using this

theorem bufWrite_nil (cs : List Byte) : bufWrite [] 0 cs = cellsFrom 0 cs := by
  simpa [cellsFrom] using bufWrite_cellsFrom 0 [] cs

theorem bufByte_cellsFrom (bs : List Byte) (k : Nat) (hk : k < bs.length) : bufByte (cellsFrom 0 bs) k = bs.getD k 0 := by
  simp [bufByte, read_cellsFrom, hk]

theorem bufRead_cellsFrom (bs : List Byte) : bufRead (cellsFrom 0 bs) 0 bs.length = bs := by
  apply List.ext_getElem
  · simp [bufRead]
  · intro i h1 h2
    simp [bufRead, bufByte_cellsFrom, h2]

theorem bufBlock_cellsFrom (bs : List Byte) (hl : bs.length = 64) : bufBlock (cellsFrom 0 bs) = blockAt bs 0 := by
  ext i hi
  simp [bufBlock, blockAt, bufByte_cellsFrom, hl]

/-- A buffer that lists the offsets 0..n-1 is the one that holds its first n bytes. -/
theorem eq_cellsFrom (m : Memory) (off n : Nat) (hm : m.map Prod.fst = List.range' off n) :
    m = cellsFrom off ((List.range n).map fun k => bufByte m (off + k)) := by
  induction n generalizing off m with
  | zero => simpa [cellsFrom] using hm
  | succ n ih =>
    cases m with
    | nil => simp at hm
    | cons c m =>
      obtain ⟨a, b⟩ := c
      simp only [List.map_cons, List.range'_succ, List.cons.injEq] at hm
      obtain ⟨rfl, hm⟩ := hm
      rw [List.range_succ_eq_map]
      simp only [List.map_cons, List.map_map, cellsFrom]
      congr 1
      · simp [bufByte, Memory.read]
      · conv_lhs => rw [ih m (a + 1) hm]
        congr 1
        apply List.map_congr_left
        intro k _
        simp only [Function.comp, bufByte, Memory.read]
        rw [if_neg (by omega), show a + 1 + k = a + (k + 1) by omega]

theorem wf_cellsFrom (bs : List Byte) (hl : bs.length ≤ 64) : Memory.wf (cellsFrom 0 bs) := by
  rw [← bufWrite_nil]; exact wf_bufWrite _ _ _ (by omega) Memory.wf_nil

end Sys2Proof.Machine
end

