-- ==== Sys2Proof/Laws/State.lean ====
section
/-! SUPPORT. For each update of State, one lemma per field, tagged @[simp], so that no later proof unfolds a record update; then
the same for the operations built from them (emit, emitAll, padZeros, finish, absorb, nextPins).

Each lemma unfolds its operation before it compares. A bare rfl makes the kernel compare the two states, and with them
`compress` of a symbolic block, which it cannot finish: cite these lemmas, and never close such a goal by rfl. -/

namespace Sys2Proof.Machine

section updates

variable (s : State)

@[simp] theorem State.completeBlock_h : s.completeBlock.h = compress s.h (bufBlock s.buf) := by unfold State.completeBlock; rfl
@[simp] theorem State.completeBlock_n : s.completeBlock.n = s.n := by unfold State.completeBlock; rfl
@[simp] theorem State.completeBlock_buf : s.completeBlock.buf = s.buf := by unfold State.completeBlock; rfl
@[simp] theorem State.completeBlock_len : s.completeBlock.len = s.len := by unfold State.completeBlock; rfl
@[simp] theorem State.completeBlock_fin : s.completeBlock.fin = s.fin := by unfold State.completeBlock; rfl
@[simp] theorem State.completeBlock_err : s.completeBlock.err = s.err := by unfold State.completeBlock; rfl
@[simp] theorem State.completeBlock_errCode : s.completeBlock.errCode = s.errCode := by unfold State.completeBlock; rfl
@[simp] theorem State.completeBlock_digest : s.completeBlock.digest = s.digest := by unfold State.completeBlock; rfl
@[simp] theorem State.completeBlock_digestDraw : s.completeBlock.digestDraw = s.digestDraw := by unfold State.completeBlock; rfl
@[simp] theorem State.completeBlock_pins : s.completeBlock.pins = s.pins := by unfold State.completeBlock; rfl
@[simp] theorem State.completeBlock_script : s.completeBlock.script = s.script := by unfold State.completeBlock; rfl

@[simp] theorem State.emptyBuffer_h : s.emptyBuffer.h = s.h := by unfold State.emptyBuffer; rfl
@[simp] theorem State.emptyBuffer_n : s.emptyBuffer.n = 0 := by unfold State.emptyBuffer; rfl
@[simp] theorem State.emptyBuffer_buf : s.emptyBuffer.buf = [] := by unfold State.emptyBuffer; rfl
@[simp] theorem State.emptyBuffer_len : s.emptyBuffer.len = s.len := by unfold State.emptyBuffer; rfl
@[simp] theorem State.emptyBuffer_fin : s.emptyBuffer.fin = s.fin := by unfold State.emptyBuffer; rfl
@[simp] theorem State.emptyBuffer_err : s.emptyBuffer.err = s.err := by unfold State.emptyBuffer; rfl
@[simp] theorem State.emptyBuffer_errCode : s.emptyBuffer.errCode = s.errCode := by unfold State.emptyBuffer; rfl
@[simp] theorem State.emptyBuffer_digest : s.emptyBuffer.digest = s.digest := by unfold State.emptyBuffer; rfl
@[simp] theorem State.emptyBuffer_digestDraw : s.emptyBuffer.digestDraw = s.digestDraw := by unfold State.emptyBuffer; rfl
@[simp] theorem State.emptyBuffer_pins : s.emptyBuffer.pins = s.pins := by unfold State.emptyBuffer; rfl
@[simp] theorem State.emptyBuffer_script : s.emptyBuffer.script = s.script := by unfold State.emptyBuffer; rfl

@[simp] theorem State.storeByte_h (b : Byte) : (s.storeByte b).h = s.h := by unfold State.storeByte; rfl
@[simp] theorem State.storeByte_n (b : Byte) : (s.storeByte b).n = s.n := by unfold State.storeByte; rfl
@[simp] theorem State.storeByte_buf (b : Byte) : (s.storeByte b).buf = bufWrite s.buf s.n.toNat [b] := by unfold State.storeByte; rfl
@[simp] theorem State.storeByte_len (b : Byte) : (s.storeByte b).len = s.len := by unfold State.storeByte; rfl
@[simp] theorem State.storeByte_fin (b : Byte) : (s.storeByte b).fin = s.fin := by unfold State.storeByte; rfl
@[simp] theorem State.storeByte_err (b : Byte) : (s.storeByte b).err = s.err := by unfold State.storeByte; rfl
@[simp] theorem State.storeByte_errCode (b : Byte) : (s.storeByte b).errCode = s.errCode := by unfold State.storeByte; rfl
@[simp] theorem State.storeByte_digest (b : Byte) : (s.storeByte b).digest = s.digest := by unfold State.storeByte; rfl
@[simp] theorem State.storeByte_digestDraw (b : Byte) : (s.storeByte b).digestDraw = s.digestDraw := by unfold State.storeByte; rfl
@[simp] theorem State.storeByte_pins (b : Byte) : (s.storeByte b).pins = s.pins := by unfold State.storeByte; rfl
@[simp] theorem State.storeByte_script (b : Byte) : (s.storeByte b).script = s.script := by unfold State.storeByte; rfl

@[simp] theorem State.countByte_h : s.countByte.h = s.h := by unfold State.countByte; rfl
@[simp] theorem State.countByte_n : s.countByte.n = s.n + 1 := by unfold State.countByte; rfl
@[simp] theorem State.countByte_buf : s.countByte.buf = s.buf := by unfold State.countByte; rfl
@[simp] theorem State.countByte_len : s.countByte.len = s.len := by unfold State.countByte; rfl
@[simp] theorem State.countByte_fin : s.countByte.fin = s.fin := by unfold State.countByte; rfl
@[simp] theorem State.countByte_err : s.countByte.err = s.err := by unfold State.countByte; rfl
@[simp] theorem State.countByte_errCode : s.countByte.errCode = s.errCode := by unfold State.countByte; rfl
@[simp] theorem State.countByte_digest : s.countByte.digest = s.digest := by unfold State.countByte; rfl
@[simp] theorem State.countByte_digestDraw : s.countByte.digestDraw = s.digestDraw := by unfold State.countByte; rfl
@[simp] theorem State.countByte_pins : s.countByte.pins = s.pins := by unfold State.countByte; rfl
@[simp] theorem State.countByte_script : s.countByte.script = s.script := by unfold State.countByte; rfl

@[simp] theorem State.reinit_h : s.reinit.h = iv := by unfold State.reinit; rfl
@[simp] theorem State.reinit_n : s.reinit.n = 0 := by unfold State.reinit; rfl
@[simp] theorem State.reinit_buf : s.reinit.buf = [] := by unfold State.reinit; rfl
@[simp] theorem State.reinit_len : s.reinit.len = 0 := by unfold State.reinit; rfl
@[simp] theorem State.reinit_fin : s.reinit.fin = s.fin := by unfold State.reinit; rfl
@[simp] theorem State.reinit_err : s.reinit.err = s.err := by unfold State.reinit; rfl
@[simp] theorem State.reinit_errCode : s.reinit.errCode = s.errCode := by unfold State.reinit; rfl
@[simp] theorem State.reinit_digest : s.reinit.digest = s.digest := by unfold State.reinit; rfl
@[simp] theorem State.reinit_digestDraw : s.reinit.digestDraw = s.digestDraw := by unfold State.reinit; rfl
@[simp] theorem State.reinit_pins : s.reinit.pins = s.pins := by unfold State.reinit; rfl
@[simp] theorem State.reinit_script : s.reinit.script = s.script := by unfold State.reinit; rfl

@[simp] theorem State.latch_h : s.latch.h = s.h := by unfold State.latch; rfl
@[simp] theorem State.latch_n : s.latch.n = s.n := by unfold State.latch; rfl
@[simp] theorem State.latch_buf : s.latch.buf = s.buf := by unfold State.latch; rfl
@[simp] theorem State.latch_len : s.latch.len = s.len := by unfold State.latch; rfl
@[simp] theorem State.latch_fin : s.latch.fin = s.fin := by unfold State.latch; rfl
@[simp] theorem State.latch_err : s.latch.err = s.err := by unfold State.latch; rfl
@[simp] theorem State.latch_errCode : s.latch.errCode = s.errCode := by unfold State.latch; rfl
@[simp] theorem State.latch_digest : s.latch.digest = some (ser s.h) := by unfold State.latch; rfl
@[simp] theorem State.latch_digestDraw : s.latch.digestDraw = s.digestDraw := by unfold State.latch; rfl
@[simp] theorem State.latch_pins : s.latch.pins = s.pins := by unfold State.latch; rfl
@[simp] theorem State.latch_script : s.latch.script = s.script := by unfold State.latch; rfl

@[simp] theorem State.setFin_h (b : Bool) : (s.setFin b).h = s.h := by unfold State.setFin; rfl
@[simp] theorem State.setFin_n (b : Bool) : (s.setFin b).n = s.n := by unfold State.setFin; rfl
@[simp] theorem State.setFin_buf (b : Bool) : (s.setFin b).buf = s.buf := by unfold State.setFin; rfl
@[simp] theorem State.setFin_len (b : Bool) : (s.setFin b).len = s.len := by unfold State.setFin; rfl
@[simp] theorem State.setFin_fin (b : Bool) : (s.setFin b).fin = b := by unfold State.setFin; rfl
@[simp] theorem State.setFin_err (b : Bool) : (s.setFin b).err = s.err := by unfold State.setFin; rfl
@[simp] theorem State.setFin_errCode (b : Bool) : (s.setFin b).errCode = s.errCode := by unfold State.setFin; rfl
@[simp] theorem State.setFin_digest (b : Bool) : (s.setFin b).digest = s.digest := by unfold State.setFin; rfl
@[simp] theorem State.setFin_digestDraw (b : Bool) : (s.setFin b).digestDraw = s.digestDraw := by unfold State.setFin; rfl
@[simp] theorem State.setFin_pins (b : Bool) : (s.setFin b).pins = s.pins := by unfold State.setFin; rfl
@[simp] theorem State.setFin_script (b : Bool) : (s.setFin b).script = s.script := by unfold State.setFin; rfl

@[simp] theorem State.raiseFault_h (c : ErrCode) : (s.raiseFault c).h = s.h := by unfold State.raiseFault; rfl
@[simp] theorem State.raiseFault_n (c : ErrCode) : (s.raiseFault c).n = s.n := by unfold State.raiseFault; rfl
@[simp] theorem State.raiseFault_buf (c : ErrCode) : (s.raiseFault c).buf = s.buf := by unfold State.raiseFault; rfl
@[simp] theorem State.raiseFault_len (c : ErrCode) : (s.raiseFault c).len = s.len := by unfold State.raiseFault; rfl
@[simp] theorem State.raiseFault_fin (c : ErrCode) : (s.raiseFault c).fin = s.fin := by unfold State.raiseFault; rfl
@[simp] theorem State.raiseFault_err (c : ErrCode) : (s.raiseFault c).err = true := by unfold State.raiseFault; rfl
@[simp] theorem State.raiseFault_errCode (c : ErrCode) : (s.raiseFault c).errCode = c := by unfold State.raiseFault; rfl
@[simp] theorem State.raiseFault_digest (c : ErrCode) : (s.raiseFault c).digest = none := by unfold State.raiseFault; rfl
@[simp] theorem State.raiseFault_digestDraw (c : ErrCode) : (s.raiseFault c).digestDraw = s.digestDraw + 1 := by unfold State.raiseFault; rfl
@[simp] theorem State.raiseFault_pins (c : ErrCode) : (s.raiseFault c).pins = s.pins := by unfold State.raiseFault; rfl
@[simp] theorem State.raiseFault_script (c : ErrCode) : (s.raiseFault c).script = s.script := by unfold State.raiseFault; rfl

@[simp] theorem State.rstTransition_h : s.rstTransition.h = iv := by unfold State.rstTransition; rfl
@[simp] theorem State.rstTransition_n : s.rstTransition.n = 0 := by unfold State.rstTransition; rfl
@[simp] theorem State.rstTransition_buf : s.rstTransition.buf = [] := by unfold State.rstTransition; rfl
@[simp] theorem State.rstTransition_len : s.rstTransition.len = 0 := by unfold State.rstTransition; rfl
@[simp] theorem State.rstTransition_fin : s.rstTransition.fin = false := by unfold State.rstTransition; rfl
@[simp] theorem State.rstTransition_err : s.rstTransition.err = false := by unfold State.rstTransition; rfl
@[simp] theorem State.rstTransition_errCode : s.rstTransition.errCode = .noFault := by unfold State.rstTransition; rfl
@[simp] theorem State.rstTransition_digest : s.rstTransition.digest = none := by unfold State.rstTransition; rfl
@[simp] theorem State.rstTransition_digestDraw : s.rstTransition.digestDraw = s.digestDraw + 1 := by unfold State.rstTransition; rfl
@[simp] theorem State.rstTransition_pins : s.rstTransition.pins = s.pins := by unfold State.rstTransition; rfl
@[simp] theorem State.rstTransition_script : s.rstTransition.script = s.script := by unfold State.rstTransition; rfl

@[simp] theorem State.loadImage_h (v : BitVec 768) : (s.loadImage v).h = ctxHash v := by unfold State.loadImage; rfl
@[simp] theorem State.loadImage_n (v : BitVec 768) : (s.loadImage v).n = ctxFill v := by unfold State.loadImage; rfl
@[simp] theorem State.loadImage_buf (v : BitVec 768) : (s.loadImage v).buf = bufWrite [] 0 (ctxPending v) := by unfold State.loadImage; rfl
@[simp] theorem State.loadImage_len (v : BitVec 768) : (s.loadImage v).len = ctxLen v := by unfold State.loadImage; rfl
@[simp] theorem State.loadImage_fin (v : BitVec 768) : (s.loadImage v).fin = false := by unfold State.loadImage; rfl
@[simp] theorem State.loadImage_err (v : BitVec 768) : (s.loadImage v).err = s.err := by unfold State.loadImage; rfl
@[simp] theorem State.loadImage_errCode (v : BitVec 768) : (s.loadImage v).errCode = s.errCode := by unfold State.loadImage; rfl
@[simp] theorem State.loadImage_digest (v : BitVec 768) : (s.loadImage v).digest = s.digest := by unfold State.loadImage; rfl
@[simp] theorem State.loadImage_digestDraw (v : BitVec 768) : (s.loadImage v).digestDraw = s.digestDraw := by unfold State.loadImage; rfl
@[simp] theorem State.loadImage_pins (v : BitVec 768) : (s.loadImage v).pins = s.pins := by unfold State.loadImage; rfl
@[simp] theorem State.loadImage_script (v : BitVec 768) : (s.loadImage v).script = s.script := by unfold State.loadImage; rfl

@[simp] theorem State.driveCtx_h (v : BitVec 768) : (s.driveCtx v).h = s.h := by unfold State.driveCtx; rfl
@[simp] theorem State.driveCtx_n (v : BitVec 768) : (s.driveCtx v).n = s.n := by unfold State.driveCtx; rfl
@[simp] theorem State.driveCtx_buf (v : BitVec 768) : (s.driveCtx v).buf = s.buf := by unfold State.driveCtx; rfl
@[simp] theorem State.driveCtx_len (v : BitVec 768) : (s.driveCtx v).len = s.len := by unfold State.driveCtx; rfl
@[simp] theorem State.driveCtx_fin (v : BitVec 768) : (s.driveCtx v).fin = s.fin := by unfold State.driveCtx; rfl
@[simp] theorem State.driveCtx_err (v : BitVec 768) : (s.driveCtx v).err = s.err := by unfold State.driveCtx; rfl
@[simp] theorem State.driveCtx_errCode (v : BitVec 768) : (s.driveCtx v).errCode = s.errCode := by unfold State.driveCtx; rfl
@[simp] theorem State.driveCtx_digest (v : BitVec 768) : (s.driveCtx v).digest = s.digest := by unfold State.driveCtx; rfl
@[simp] theorem State.driveCtx_digestDraw (v : BitVec 768) : (s.driveCtx v).digestDraw = s.digestDraw := by unfold State.driveCtx; rfl
@[simp] theorem State.driveCtx_pins (v : BitVec 768) : (s.driveCtx v).pins = { s.pins with ctxIn := v } := by unfold State.driveCtx; rfl
@[simp] theorem State.driveCtx_script (v : BitVec 768) : (s.driveCtx v).script = s.script := by unfold State.driveCtx; rfl

@[simp] theorem State.withFetchWord_h (nbits w : Nat) : (s.withFetchWord nbits w).h = s.h := by unfold State.withFetchWord; rfl
@[simp] theorem State.withFetchWord_n (nbits w : Nat) : (s.withFetchWord nbits w).n = s.n := by unfold State.withFetchWord; rfl
@[simp] theorem State.withFetchWord_buf (nbits w : Nat) : (s.withFetchWord nbits w).buf = s.buf := by unfold State.withFetchWord; rfl
@[simp] theorem State.withFetchWord_len (nbits w : Nat) : (s.withFetchWord nbits w).len = s.len := by unfold State.withFetchWord; rfl
@[simp] theorem State.withFetchWord_fin (nbits w : Nat) : (s.withFetchWord nbits w).fin = s.fin := by unfold State.withFetchWord; rfl
@[simp] theorem State.withFetchWord_err (nbits w : Nat) : (s.withFetchWord nbits w).err = s.err := by unfold State.withFetchWord; rfl
@[simp] theorem State.withFetchWord_errCode (nbits w : Nat) : (s.withFetchWord nbits w).errCode = s.errCode := by unfold State.withFetchWord; rfl
@[simp] theorem State.withFetchWord_digest (nbits w : Nat) : (s.withFetchWord nbits w).digest = s.digest := by unfold State.withFetchWord; rfl
@[simp] theorem State.withFetchWord_digestDraw (nbits w : Nat) : (s.withFetchWord nbits w).digestDraw = s.digestDraw := by unfold State.withFetchWord; rfl
@[simp] theorem State.withFetchWord_pins (nbits w : Nat) : (s.withFetchWord nbits w).pins = { s.pins with rst := false, cmdValid := true, cmd := tableWord nbits w } := by unfold State.withFetchWord; rfl
@[simp] theorem State.withFetchWord_script (nbits w : Nat) : (s.withFetchWord nbits w).script = s.script := by unfold State.withFetchWord; rfl

end updates

@[simp] theorem State.emit_len (b : Byte) (s : State) : (s.emit b).len = s.len := by
  unfold State.emit; split <;> simp

@[simp] theorem State.emitAll_len (bs : List Byte) (s : State) : (State.emitAll bs s).len = s.len := by
  induction bs generalizing s with
  | nil => simp [State.emitAll]
  | cons b bs ih => simp [State.emitAll, ih]

@[simp] theorem State.padZeros_len (bound : Nat) (s : State) : (State.padZeros bound s).len = s.len := by
  induction bound generalizing s with
  | zero => simp [State.padZeros]
  | succ k ih => simp only [State.padZeros]; split <;> simp [ih]

@[simp] theorem State.finish_len (s : State) : s.finish.len = s.len := by simp [State.finish]

@[simp] theorem State.emit_fin (b : Byte) (s : State) : (s.emit b).fin = s.fin := by
  unfold State.emit; split <;> simp

@[simp] theorem State.emitAll_fin (bs : List Byte) (s : State) : (State.emitAll bs s).fin = s.fin := by
  induction bs generalizing s with
  | nil => simp [State.emitAll]
  | cons b bs ih => simp [State.emitAll, ih]

@[simp] theorem State.padZeros_fin (bound : Nat) (s : State) : (State.padZeros bound s).fin = s.fin := by
  induction bound generalizing s with
  | zero => simp [State.padZeros]
  | succ k ih => simp only [State.padZeros]; split <;> simp [ih]

@[simp] theorem State.finish_fin (s : State) : s.finish.fin = s.fin := by simp [State.finish]

@[simp] theorem State.absorb_fin (b : Byte) (s : State) : (s.absorb b).fin = s.fin := by simp [State.absorb]

@[simp] theorem State.emit_err (b : Byte) (s : State) : (s.emit b).err = s.err := by
  unfold State.emit; split <;> simp

@[simp] theorem State.emitAll_err (bs : List Byte) (s : State) : (State.emitAll bs s).err = s.err := by
  induction bs generalizing s with
  | nil => simp [State.emitAll]
  | cons b bs ih => simp [State.emitAll, ih]

@[simp] theorem State.padZeros_err (bound : Nat) (s : State) : (State.padZeros bound s).err = s.err := by
  induction bound generalizing s with
  | zero => simp [State.padZeros]
  | succ k ih => simp only [State.padZeros]; split <;> simp [ih]

@[simp] theorem State.finish_err (s : State) : s.finish.err = s.err := by simp [State.finish]

@[simp] theorem State.absorb_err (b : Byte) (s : State) : (s.absorb b).err = s.err := by simp [State.absorb]

@[simp] theorem State.emit_errCode (b : Byte) (s : State) : (s.emit b).errCode = s.errCode := by
  unfold State.emit; split <;> simp

@[simp] theorem State.emitAll_errCode (bs : List Byte) (s : State) : (State.emitAll bs s).errCode = s.errCode := by
  induction bs generalizing s with
  | nil => simp [State.emitAll]
  | cons b bs ih => simp [State.emitAll, ih]

@[simp] theorem State.padZeros_errCode (bound : Nat) (s : State) : (State.padZeros bound s).errCode = s.errCode := by
  induction bound generalizing s with
  | zero => simp [State.padZeros]
  | succ k ih => simp only [State.padZeros]; split <;> simp [ih]

@[simp] theorem State.finish_errCode (s : State) : s.finish.errCode = s.errCode := by simp [State.finish]

@[simp] theorem State.absorb_errCode (b : Byte) (s : State) : (s.absorb b).errCode = s.errCode := by simp [State.absorb]

@[simp] theorem State.emit_digest (b : Byte) (s : State) : (s.emit b).digest = s.digest := by
  unfold State.emit; split <;> simp

@[simp] theorem State.emitAll_digest (bs : List Byte) (s : State) : (State.emitAll bs s).digest = s.digest := by
  induction bs generalizing s with
  | nil => simp [State.emitAll]
  | cons b bs ih => simp [State.emitAll, ih]

@[simp] theorem State.padZeros_digest (bound : Nat) (s : State) : (State.padZeros bound s).digest = s.digest := by
  induction bound generalizing s with
  | zero => simp [State.padZeros]
  | succ k ih => simp only [State.padZeros]; split <;> simp [ih]

@[simp] theorem State.absorb_digest (b : Byte) (s : State) : (s.absorb b).digest = s.digest := by simp [State.absorb]

@[simp] theorem State.emit_digestDraw (b : Byte) (s : State) : (s.emit b).digestDraw = s.digestDraw := by
  unfold State.emit; split <;> simp

@[simp] theorem State.emitAll_digestDraw (bs : List Byte) (s : State) : (State.emitAll bs s).digestDraw = s.digestDraw := by
  induction bs generalizing s with
  | nil => simp [State.emitAll]
  | cons b bs ih => simp [State.emitAll, ih]

@[simp] theorem State.padZeros_digestDraw (bound : Nat) (s : State) : (State.padZeros bound s).digestDraw = s.digestDraw := by
  induction bound generalizing s with
  | zero => simp [State.padZeros]
  | succ k ih => simp only [State.padZeros]; split <;> simp [ih]

@[simp] theorem State.finish_digestDraw (s : State) : s.finish.digestDraw = s.digestDraw := by simp [State.finish]

@[simp] theorem State.absorb_digestDraw (b : Byte) (s : State) : (s.absorb b).digestDraw = s.digestDraw := by simp [State.absorb]

@[simp] theorem State.emit_pins (b : Byte) (s : State) : (s.emit b).pins = s.pins := by
  unfold State.emit; split <;> simp

@[simp] theorem State.emitAll_pins (bs : List Byte) (s : State) : (State.emitAll bs s).pins = s.pins := by
  induction bs generalizing s with
  | nil => simp [State.emitAll]
  | cons b bs ih => simp [State.emitAll, ih]

@[simp] theorem State.padZeros_pins (bound : Nat) (s : State) : (State.padZeros bound s).pins = s.pins := by
  induction bound generalizing s with
  | zero => simp [State.padZeros]
  | succ k ih => simp only [State.padZeros]; split <;> simp [ih]

@[simp] theorem State.finish_pins (s : State) : s.finish.pins = s.pins := by simp [State.finish]

@[simp] theorem State.absorb_pins (b : Byte) (s : State) : (s.absorb b).pins = s.pins := by simp [State.absorb]

@[simp] theorem State.emit_script (b : Byte) (s : State) : (s.emit b).script = s.script := by
  unfold State.emit; split <;> simp

@[simp] theorem State.emitAll_script (bs : List Byte) (s : State) : (State.emitAll bs s).script = s.script := by
  induction bs generalizing s with
  | nil => simp [State.emitAll]
  | cons b bs ih => simp [State.emitAll, ih]

@[simp] theorem State.padZeros_script (bound : Nat) (s : State) : (State.padZeros bound s).script = s.script := by
  induction bound generalizing s with
  | zero => simp [State.padZeros]
  | succ k ih => simp only [State.padZeros]; split <;> simp [ih]

@[simp] theorem State.finish_script (s : State) : s.finish.script = s.script := by simp [State.finish]

@[simp] theorem State.absorb_script (b : Byte) (s : State) : (s.absorb b).script = s.script := by simp [State.absorb]

@[simp] theorem State.absorb_len (b : Byte) (s : State) : (s.absorb b).len = s.len + 1 := by simp [State.absorb, add64]

@[simp] theorem State.finish_digest (s : State) : s.finish.digest = some (ser s.finish.h) := by simp [State.finish]

@[simp] theorem State.nextPins_h (s : State) : s.nextPins.h = s.h := by
  unfold State.nextPins; split <;> rfl

@[simp] theorem State.nextPins_n (s : State) : s.nextPins.n = s.n := by
  unfold State.nextPins; split <;> rfl

@[simp] theorem State.nextPins_buf (s : State) : s.nextPins.buf = s.buf := by
  unfold State.nextPins; split <;> rfl

@[simp] theorem State.nextPins_len (s : State) : s.nextPins.len = s.len := by
  unfold State.nextPins; split <;> rfl

@[simp] theorem State.nextPins_fin (s : State) : s.nextPins.fin = s.fin := by
  unfold State.nextPins; split <;> rfl

@[simp] theorem State.nextPins_err (s : State) : s.nextPins.err = s.err := by
  unfold State.nextPins; split <;> rfl

@[simp] theorem State.nextPins_errCode (s : State) : s.nextPins.errCode = s.errCode := by
  unfold State.nextPins; split <;> rfl

@[simp] theorem State.nextPins_digest (s : State) : s.nextPins.digest = s.digest := by
  unfold State.nextPins; split <;> rfl

@[simp] theorem State.nextPins_digestDraw (s : State) : s.nextPins.digestDraw = s.digestDraw := by
  unfold State.nextPins; split <;> rfl

end Sys2Proof.Machine
end

