-- ==== Sys2Proof/Laws/Ops.lean ====
section
/-! SUPPORT. One lemma per shared operation that says once everything it can do: the checks common to all commands, emit on a
buffer that holds the Pending Buffer, the zero fill, the meanings of the five commands, one step. -/

namespace Sys2Proof.Machine

/-- The first check: a command is ignored while ERR = 1, else it has its effect. -/
theorem whenLive_cases (s : State) (k : State → State) :
    (s.err = true ∧ s.whenLive k = s) ∨ (s.err = false ∧ s.whenLive k = k s) := by
  unfold State.whenLive
  cases h : s.err <;> simp

/-- The checks of PUSH, FINAL and FINALR: ignored, USE_AFTER_FINAL, or the effect. -/
theorem whenActive_cases (s : State) (k : State → State) :
    (s.err = true ∧ s.whenActive k = s) ∨
    (s.err = false ∧ s.fin = true ∧ s.whenActive k = s.raiseFault .useAfterFinal) ∨
    (s.err = false ∧ s.fin = false ∧ s.whenActive k = k s) := by
  unfold State.whenActive State.whenLive
  cases h : s.err <;> cases h' : s.fin <;> simp [h']

theorem whenLive_err {s : State} (h : s.err = true) (k : State → State) : s.whenLive k = s := by
  simp [State.whenLive, h]

theorem whenLive_ok {s : State} (h : s.err = false) (k : State → State) : s.whenLive k = k s := by
  simp [State.whenLive, h]

theorem whenActive_err {s : State} (h : s.err = true) (k : State → State) : s.whenActive k = s := by
  simp [State.whenActive, State.whenLive, h]

theorem whenActive_fin {s : State} (h : s.err = false) (hf : s.fin = true) (k : State → State) :
    s.whenActive k = s.raiseFault .useAfterFinal := by
  simp [State.whenActive, State.whenLive, h, hf]

theorem whenActive_ok {s : State} (h : s.err = false) (hf : s.fin = false) (k : State → State) : s.whenActive k = k s := by
  simp [State.whenActive, State.whenLive, h, hf]

/-- CTXLOAD's effect: the image loaded, or BAD_CONTEXT. -/
theorem loadContext_cases (v : BitVec 768) (s : State) :
    (ctxValid v = true ∧ s.loadContext v = s.loadImage v) ∨
    (ctxValid v = false ∧ s.loadContext v = s.raiseFault .badContext) := by
  unfold State.loadContext
  cases h : ctxValid v <;> simp

/-- N + 1 in 6 bits. -/
theorem fill_succ (n : BitVec 6) : (n + 1).toNat = (n.toNat + 1) % 64 := by rw [BitVec.toNat_add]; rfl

/-- The distance from N to 56 in 6 bits. -/
theorem fill_to_56 (n : BitVec 6) : (56 - n).toNat = (120 - n.toNat) % 64 := by
  have := n.isLt
  rw [BitVec.toNat_sub, show BitVec.toNat (56 : BitVec 6) = 56 from rfl]; omega

/-- emit always moves N on by one modulo 64: at offset 63 the wrap is the block's completion. -/
@[simp] theorem State.emit_n (b : Byte) (s : State) : (s.emit b).n = s.n + 1 := by
  unfold State.emit
  split
  · rename_i h; simp [h]
  · simp

@[simp] theorem State.emitAll_n (bs : List Byte) (s : State) : (State.emitAll bs s).n = s.n + BitVec.ofNat 6 bs.length := by
  induction bs generalizing s with
  | nil => simp [State.emitAll]
  | cons b bs ih =>
    simp only [State.emitAll, ih, State.emit_n, List.length_cons]
    rw [BitVec.add_assoc, Nat.add_comm bs.length 1, BitVec.ofNat_add]; rfl

theorem State.emitAll_append (bs cs : List Byte) (s : State) :
    State.emitAll (bs ++ cs) s = State.emitAll cs (State.emitAll bs s) := by
  induction bs generalizing s with
  | nil => simp [State.emitAll]
  | cons b bs ih => simp [State.emitAll, ih]

theorem State.emitAll_singleton (b : Byte) (s : State) : State.emitAll [b] s = s.emit b := by
  simp only [State.emitAll]

/-- The buffer holds exactly the bytes `pb` at offsets 0, 1, .., and N is their number. -/
def State.Holds (s : State) (pb : List Byte) : Prop := s.buf = cellsFrom 0 pb ∧ s.n.toNat = pb.length

theorem State.Holds.length_lt {s : State} {pb : List Byte} (h : s.Holds pb) : pb.length < 64 := by
  rw [← h.2]; exact s.n.isLt

theorem State.Holds.pending {s : State} {pb : List Byte} (h : s.Holds pb) : s.pending = pb := by
  unfold State.pending
  rw [h.1, h.2, bufRead_cellsFrom]

theorem State.Holds.bufferIsPending {s : State} {pb : List Byte} (h : s.Holds pb) : s.BufferIsPending := by
  unfold State.BufferIsPending
  rw [h.1, h.2, map_fst_cellsFrom, List.range_eq_range']

theorem State.Holds.wf {s : State} {pb : List Byte} (h : s.Holds pb) : Memory.wf s.buf := by
  rw [h.1]; exact wf_cellsFrom pb h.length_lt.le

/-- A buffer with a value exactly at offsets 0..N-1 holds the Pending Buffer. -/
theorem State.holds_pending {s : State} (h : s.BufferIsPending) : s.Holds s.pending := by
  refine ⟨?_, by simp [State.pending, bufRead]⟩
  have := eq_cellsFrom s.buf 0 s.n.toNat (by rw [h, List.range_eq_range'])
  simpa [State.pending, bufRead] using this

theorem State.pending_length (s : State) : s.pending.length = s.n.toNat := by simp [State.pending, bufRead]

/-- An empty buffer with N = 0. -/
theorem State.holds_nil {s : State} (hb : s.buf = []) (hn : s.n = 0) : s.Holds [] := by
  simp [State.Holds, hb, hn, cellsFrom]

/-- emit below offset 63: the byte is appended to the Pending Buffer and H stays (41_buffer_commands.md R143). -/
theorem State.emit_within {s : State} {pb : List Byte} (h : s.Holds pb) (b : Byte) (hl : pb.length ≠ 63) :
    (s.emit b).h = s.h ∧ (s.emit b).Holds (pb ++ [b]) := by
  have h63 : s.n ≠ 63 := by
    intro e; apply hl; rw [← h.2, e]; rfl
  have hlt := h.length_lt
  have e : s.emit b = (s.storeByte b).countByte := by rw [State.emit, if_neg h63]
  refine ⟨by simp [e], ?_, ?_⟩
  · rw [e]
    simp only [State.countByte_buf, State.storeByte_buf, h.1, h.2]
    simpa using bufWrite_cellsFrom 0 pb [b]
  · rw [State.emit_n, fill_succ, List.length_append, List.length_singleton, h.2]
    omega

/-- emit at offset 63: H is replaced by compress(H, PB ++ [b]) and the buffer is empty (41_buffer_commands.md R143, R144). -/
theorem State.emit_full {s : State} {pb : List Byte} (h : s.Holds pb) (b : Byte) (hl : pb.length = 63) :
    (s.emit b).h = compress s.h (blockAt (pb ++ [b]) 0) ∧ (s.emit b).Holds [] := by
  have h63 : s.n = 63 := by
    apply BitVec.eq_of_toNat_eq; rw [h.2, hl]; rfl
  have e : s.emit b = (s.storeByte b).completeBlock.emptyBuffer := by rw [State.emit, if_pos h63]
  have hw : bufWrite s.buf s.n.toNat [b] = cellsFrom 0 (pb ++ [b]) := by
    rw [h.1, h.2]; simpa using bufWrite_cellsFrom 0 pb [b]
  refine ⟨?_, State.holds_nil (by simp [e]) (by simp [e])⟩
  rw [e]
  simp only [State.emptyBuffer_h, State.completeBlock_h, State.storeByte_h, State.storeByte_buf]
  rw [hw, bufBlock_cellsFrom _ (by simp [hl])]

/-- `while N != 56: emit(0x00)` emits (56 - N) mod 64 zero bytes, so a bound of 64 never ends it (42_finalization.md R164). -/
theorem State.padZeros_eq (bound : Nat) (s : State) (hb : (56 - s.n).toNat ≤ bound) :
    State.padZeros bound s = State.emitAll (List.replicate (56 - s.n).toNat 0) s := by
  induction bound generalizing s with
  | zero =>
    have : (56 - s.n).toNat = 0 := by omega
    rw [this]; rfl
  | succ bound ih =>
    simp only [State.padZeros]
    split
    · rename_i h; rw [h]; rfl
    · rename_i h
      have hk : (56 - s.n).toNat = (56 - (s.n + 1)).toNat + 1 := by
        have h' : s.n.toNat ≠ 56 := fun e => h (by apply BitVec.eq_of_toNat_eq; rw [e]; rfl)
        have hlt := s.n.isLt
        rw [fill_to_56, fill_to_56, fill_succ]
        omega
      rw [ih _ (by rw [State.emit_n]; omega), State.emit_n, hk, List.replicate_succ]
      rfl

/-- Every meaning answers a next state. -/
theorem exec_next (i : Instr) (s : State) : ∃ t, exec i s = .next t := by
  cases i <;> exact ⟨_, rfl⟩

theorem execReserved_next (s : State) : ∃ t, execReserved s = .next t := ⟨_, rfl⟩

/-- What accepting a command word can do: run the decoded command, or treat it as reserved. -/
theorem accept_cases (cmd : CmdWord) (s : State) :
    (∃ i, decode cmd = .command i ∧ accept cmd s = exec i s) ∨
    (∃ r, decode cmd = .reserved r ∧ accept cmd s = execReserved s) := by
  unfold accept
  cases h : decode cmd with
  | command i => exact .inl ⟨i, rfl, rfl⟩
  | reserved r => exact .inr ⟨r, rfl, rfl⟩

/-- Everything a step can do: reset, a decoded command, a reserved word, or nothing; then the host's next sample. -/
theorem step_cases {s t : State} (h : step s = .next t) :
    (s.pins.rst = true ∧ t = s.rstTransition.nextPins) ∨
    (s.pins.rst = false ∧ s.pins.cmdValid = false ∧ t = s.nextPins) ∨
    (s.pins.rst = false ∧ s.pins.cmdValid = true ∧ ∃ i u, decode s.pins.cmd = .command i ∧ exec i s = .next u ∧ t = u.nextPins) ∨
    (s.pins.rst = false ∧ s.pins.cmdValid = true ∧ ∃ r, decode s.pins.cmd = .reserved r ∧
      t = (s.whenLive (State.raiseFault .illegalCommand)).nextPins) := by
  unfold step samplePins at h
  cases hr : s.pins.rst with
  | true =>
    left
    simp only [hr, if_true, afterNext, Host.Outcome.next.injEq] at h
    exact ⟨rfl, h.symm⟩
  | false =>
    right
    cases hv : s.pins.cmdValid with
    | false =>
      left
      simp only [hr, hv, Bool.false_eq_true, if_false, afterNext, Host.Outcome.next.injEq] at h
      exact ⟨rfl, rfl, h.symm⟩
    | true =>
      right
      simp only [hr, hv, Bool.false_eq_true, if_false, if_true] at h
      rcases accept_cases s.pins.cmd s with ⟨i, hd, ha⟩ | ⟨r, hd, ha⟩
      · left
        obtain ⟨u, hu⟩ := exec_next i s
        rw [ha, hu] at h
        simp only [afterNext, Host.Outcome.next.injEq] at h
        exact ⟨rfl, rfl, i, u, hd, hu, h.symm⟩
      · right
        rw [ha] at h
        simp only [execReserved, afterNext, Host.Outcome.next.injEq] at h
        exact ⟨rfl, rfl, r, hd, h.symm⟩

/-- Running one step more: `Host.Core.run` at a next state, for the machine or any other. -/
theorem core_run_succ (M : Host.Core) (k : Nat) {s u : M.State} (hu : M.step s = .next u) : M.run (k + 1) s = M.run k u := by
  simp only [Host.Core.run, hu]

theorem core_run_zero (M : Host.Core) (s : M.State) : M.run 0 s = .next s := by
  simp only [Host.Core.run]

end Sys2Proof.Machine
end

