-- ==== Sys2Proof/Laws/Words.lean ====
section
/-! SUPPORT. Byte order and packing: the bytes of a word, the words and bytes of a port. -/

namespace Sys2Proof.Machine

theorem getElem_le32 (b0 b1 b2 b3 : Byte) (i : Nat) (hi : i < 32) :
    (le32 b0 b1 b2 b3)[i] =
      if i < 8 then b0.getLsbD i else if i < 16 then b1.getLsbD (i - 8)
      else if i < 24 then b2.getLsbD (i - 16) else b3.getLsbD (i - 24) := by
  simp only [le32, ← BitVec.getLsbD_eq_getElem, BitVec.getLsbD_append]
  by_cases h1 : i < 8
  · simp [h1]
  by_cases h2 : i < 16
  · simp [h1, h2, show i - 8 < 8 by omega]
  by_cases h3 : i < 24
  · simp [h1, h2, h3, show ¬ i - 8 < 8 by omega, show i - 8 - 8 = i - 16 by omega, show i - 16 < 8 by omega]
  · simp [h1, h2, h3, show ¬ i - 8 < 8 by omega, show ¬ i - 8 - 8 < 8 by omega, show i - 8 - 8 - 8 = i - 24 by omega]

/-- The bytes of a little-endian word are the four bytes it was made of (20_memory.md R52). -/
theorem byteOf_le32 (b0 b1 b2 b3 : Byte) :
    byteOf (le32 b0 b1 b2 b3) 0 = b0 ∧ byteOf (le32 b0 b1 b2 b3) 1 = b1 ∧
    byteOf (le32 b0 b1 b2 b3) 2 = b2 ∧ byteOf (le32 b0 b1 b2 b3) 3 = b3 := by
  have key : ∀ k i, i < 8 → k < 4 → (byteOf (le32 b0 b1 b2 b3) k).getLsbD i = (le32 b0 b1 b2 b3).getLsbD (8 * k + i) := by
    intro k i hi _
    simp [byteOf, hi]
  refine ⟨?_, ?_, ?_, ?_⟩ <;> ext i hi <;>
    rw [← BitVec.getLsbD_eq_getElem, ← BitVec.getLsbD_eq_getElem, key _ i hi (by omega),
      BitVec.getLsbD_eq_getElem (by omega), getElem_le32]
  · simp [hi]
  · simp [show ¬ 8 * 1 + i < 8 by omega, show 8 * 1 + i < 16 by omega]
  · simp [show ¬ 8 * 2 + i < 8 by omega, show ¬ 8 * 2 + i < 16 by omega, show 8 * 2 + i < 24 by omega]
  · simp [show ¬ 8 * 3 + i < 8 by omega, show ¬ 8 * 3 + i < 16 by omega, show ¬ 8 * 3 + i < 24 by omega]

/-- A word is its four bytes put together little-endian. -/
theorem le32_byteOf (w : Word) : le32 (byteOf w 0) (byteOf w 1) (byteOf w 2) (byteOf w 3) = w := by
  ext i hi
  rw [getElem_le32]
  have key : ∀ k j, j < 8 → (byteOf w k).getLsbD j = w.getLsbD (8 * k + j) := by
    intro k j hj; simp [byteOf, hj]
  by_cases h1 : i < 8
  · rw [if_pos h1, key _ _ h1, ← BitVec.getLsbD_eq_getElem]; congr 1; omega
  by_cases h2 : i < 16
  · rw [if_neg h1, if_pos h2, key _ _ (by omega), ← BitVec.getLsbD_eq_getElem]; congr 1; omega
  by_cases h3 : i < 24
  · rw [if_neg h1, if_neg h2, if_pos h3, key _ _ (by omega), ← BitVec.getLsbD_eq_getElem]; congr 1; omega
  · rw [if_neg h1, if_neg h2, if_neg h3, key _ _ (by omega), ← BitVec.getLsbD_eq_getElem]; congr 1; omega

theorem packWords_lt (ws : List Word) : packWords ws < 2 ^ (32 * ws.length) := by
  induction ws with
  | nil => simp [packWords]
  | cons w ws ih =>
    have hw := w.isLt
    have : 2 ^ (32 * (w :: ws).length) = 2 ^ 32 * 2 ^ (32 * ws.length) := by
      rw [← Nat.pow_add]; congr 1; simp; omega
    simp only [packWords]
    rw [this]
    calc w.toNat + 2 ^ 32 * packWords ws < 2 ^ 32 + 2 ^ 32 * packWords ws := by omega
      _ = 2 ^ 32 * (packWords ws + 1) := by ring
      _ ≤ 2 ^ 32 * 2 ^ (32 * ws.length) := Nat.mul_le_mul_left _ ih

theorem packWords_word (ws : List Word) (i : Nat) : packWords ws / 2 ^ (32 * i) % 2 ^ 32 = (ws.getD i 0).toNat := by
  induction ws generalizing i with
  | nil => simp [packWords]
  | cons w ws ih =>
    have hw := w.isLt
    cases i with
    | zero => simp [packWords]; omega
    | succ i =>
      have : 2 ^ (32 * (i + 1)) = 2 ^ 32 * 2 ^ (32 * i) := by rw [← Nat.pow_add]; congr 1; omega
      rw [this, ← Nat.div_div_eq_div_mul]
      have : packWords (w :: ws) / 2 ^ 32 = packWords ws := by simp only [packWords]; omega
      rw [this, ih]; simp

/-- Word i of a port that carries a word array is the array's word i (30_encoding.md R98, R99). -/
theorem portWord_packWords (width : Nat) (ws : List Word) (hw : 32 * ws.length ≤ width) (i : Nat) :
    portWord width (BitVec.ofNat width (packWords ws)) i = ws.getD i 0 := by
  apply BitVec.eq_of_toNat_eq
  have h1 : packWords ws < 2 ^ width := lt_of_lt_of_le (packWords_lt ws) (Nat.pow_le_pow_right (by omega) hw)
  simp only [portWord, BitVec.extractLsb'_toNat, BitVec.toNat_ofNat, Nat.mod_eq_of_lt h1, Nat.shiftRight_eq_div_pow]
  exact packWords_word ws i

theorem packBytes_lt (bs : List Byte) : packBytes bs < 2 ^ (8 * bs.length) := by
  induction bs with
  | nil => simp [packBytes]
  | cons b bs ih =>
    have hb := b.isLt
    have : 2 ^ (8 * (b :: bs).length) = 2 ^ 8 * 2 ^ (8 * bs.length) := by
      rw [← Nat.pow_add]; congr 1; simp; omega
    simp only [packBytes]
    rw [this]
    calc b.toNat + 2 ^ 8 * packBytes bs < 2 ^ 8 + 2 ^ 8 * packBytes bs := by omega
      _ = 2 ^ 8 * (packBytes bs + 1) := by ring
      _ ≤ 2 ^ 8 * 2 ^ (8 * bs.length) := Nat.mul_le_mul_left _ ih

theorem packBytes_byte (bs : List Byte) (i : Nat) : packBytes bs / 2 ^ (8 * i) % 2 ^ 8 = (bs.getD i 0).toNat := by
  induction bs generalizing i with
  | nil => simp [packBytes]
  | cons b bs ih =>
    have hb := b.isLt
    cases i with
    | zero => simp [packBytes]; omega
    | succ i =>
      have : 2 ^ (8 * (i + 1)) = 2 ^ 8 * 2 ^ (8 * i) := by rw [← Nat.pow_add]; congr 1; omega
      rw [this, ← Nat.div_div_eq_div_mul]
      have : packBytes (b :: bs) / 2 ^ 8 = packBytes bs := by simp only [packBytes]; omega
      rw [this, ih]; simp

/-- Byte i of a port that carries a byte sequence is the sequence's byte i (30_encoding.md R98). -/
theorem portByte_packBytes (width : Nat) (bs : List Byte) (hw : 8 * bs.length ≤ width) (i : Nat) :
    portByte width (BitVec.ofNat width (packBytes bs)) i = bs.getD i 0 := by
  apply BitVec.eq_of_toNat_eq
  have h1 : packBytes bs < 2 ^ width := lt_of_lt_of_le (packBytes_lt bs) (Nat.pow_le_pow_right (by omega) hw)
  simp only [portByte, BitVec.extractLsb'_toNat, BitVec.toNat_ofNat, Nat.mod_eq_of_lt h1, Nat.shiftRight_eq_div_pow]
  exact packBytes_byte bs i

/-- Byte k of port word i is port byte 4i + k: words and bytes on a port agree (30_encoding.md R98). -/
theorem byteOf_portWord (width : Nat) (v : BitVec width) (i k : Nat) (hk : k < 4) :
    byteOf (portWord width v i) k = portByte width v (4 * i + k) := by
  ext j hj
  simp [byteOf, portWord, portByte, show 8 * k + j < 32 by omega]
  congr 1; omega

/-- `bytes32(w)` has four bytes. -/
@[simp] theorem bytes32_length (w : Word) : (bytes32 w).length = 4 := rfl

/-- `bytes64(v)` has eight bytes. -/
@[simp] theorem bytes64_length (v : DWord) : (bytes64 v).length = 8 := rfl

/-- Byte 4i + k of ser(h) is h[i][8k+7:8k] (42_finalization.md R167). -/
theorem ser_byte (h : HashState) (i : Fin 5) (k : Fin 4) :
    (ser h)[4 * i.val + k.val] = byteOf (h.word i) k.val := by
  fin_cases i <;> fin_cases k <;> rfl

/-- `ser` loses nothing: two chaining values with the same digest are equal. -/
theorem ser_injective (g h : HashState) (e : ser g = ser h) : g = h := by
  have key : ∀ i : Fin 5, g.word i = h.word i := by
    intro i
    have b : ∀ k : Fin 4, byteOf (g.word i) k.val = byteOf (h.word i) k.val := by
      intro k; rw [← ser_byte, ← ser_byte]; simp [e]
    rw [← le32_byteOf (g.word i), ← le32_byteOf (h.word i)]
    have b0 := b 0; have b1 := b 1; have b2 := b 2; have b3 := b 3
    simp only [Fin.val_zero, Fin.val_one, Fin.val_two, show ((3 : Fin 4) : Nat) = 3 from rfl] at b0 b1 b2 b3
    rw [b0, b1, b2, b3]
  cases g; cases h
  have h0 := key 0; have h1 := key 1; have h2 := key 2; have h3 := key 3; have h4 := key 4
  simp only [HashState.word] at h0 h1 h2 h3 h4
  simp [*]

end Sys2Proof.Machine
end

