-- ==== Sys2Proof/Laws/Context.lean ====
section
/-! SUPPORT. The context image field by field: what the fields of `ctx_in` are as port bits, the words and bytes of `ctx_out`, the
buffer CTXLOAD leaves. -/

namespace Sys2Proof.Machine

/-- A field of a field is a field. -/
theorem extractLsb'_extractLsb' {w : Nat} (v : BitVec w) (a b c d : Nat) (h : c + d ≤ b) :
    (v.extractLsb' a b).extractLsb' c d = v.extractLsb' (a + c) d := by
  ext i hi
  simp [show c + i < b by omega]; congr 1; omega

/-- N' is port bits [229:224]. -/
theorem ctxFill_eq (v : BitVec 768) : ctxFill v = v.extractLsb' 224 6 := by
  unfold ctxFill ctxWord portWord; rw [extractLsb'_extractLsb' _ _ _ _ _ (by omega)]

/-- The reserved field is port bits [255:230]. -/
theorem ctxReserved_eq (v : BitVec 768) : ctxReserved v = v.extractLsb' 230 26 := by
  unfold ctxReserved ctxWord portWord; rw [extractLsb'_extractLsb' _ _ _ _ _ (by omega)]

/-- L' is port bits [223:160]. -/
theorem ctxLen_eq (v : BitVec 768) : ctxLen v = v.extractLsb' 160 64 := by
  unfold ctxLen ctxWord portWord
  ext i hi
  simp only [← BitVec.getLsbD_eq_getElem, BitVec.getLsbD_append, BitVec.getLsbD_extractLsb']
  by_cases h : i < 32
  · simp [h, hi]
  · simp [h, hi, show i - 32 < 32 by omega]; congr 1; omega

/-- Buffer byte k of an image is port bits [256 + 8k + 7 : 256 + 8k]. -/
theorem ctxByte_eq (v : BitVec 768) (k : Nat) : ctxByte v k = v.extractLsb' (256 + 8 * k) 8 := by
  unfold ctxByte ctxWord portWord byteOf
  rw [extractLsb'_extractLsb' _ _ _ _ _ (by omega)]
  congr 1; omega

/-- Byte k of the Pending Buffer in an image. -/
theorem getElem?_ctxPending (v : BitVec 768) (k : Nat) :
    (ctxPending v)[k]? = if k < (ctxFill v).toNat then some (ctxByte v k) else none := by
  unfold ctxPending
  simp
  split <;> simp_all

/-- After a load the buffer holds the image's Pending Buffer and nothing else. -/
theorem State.loadImage_holds (v : BitVec 768) (s : State) : (s.loadImage v).Holds (ctxPending v) := by
  refine ⟨by simp [bufWrite_nil], by simp [ctxPending]⟩

theorem image_length (h : HashState) (pb : List Byte) (len : DWord) : (image h pb len).length = 24 := rfl

/-- Word i of `ctx_out` is word i of the image. -/
theorem State.ctxOut_word (s : State) (i : Nat) : s.ctxOut.extractLsb' (32 * i) 32 = s.contextImage.getD i 0 :=
  portWord_packWords 768 s.contextImage (by rw [State.contextImage, image_length]) i

/-- Byte c of buffer word w of an image is byte 4w + c of the padded Pending Buffer. -/
theorem byteOf_imageBufWord (pb : List Byte) (w c : Nat) (hc : c < 4) :
    byteOf (imageBufWord pb w) c = imageByte pb (4 * w + c) := by
  unfold imageBufWord
  obtain ⟨b0, b1, b2, b3⟩ := byteOf_le32 (imageByte pb (4 * w)) (imageByte pb (4 * w + 1)) (imageByte pb (4 * w + 2))
    (imageByte pb (4 * w + 3))
  interval_cases c <;> assumption

/-- Two states with the same hashing state show the same image. -/
theorem State.ctxOut_congr {s t : State} (h : s.h = t.h) (hn : s.n = t.n) (hb : s.buf = t.buf) (hl : s.len = t.len) :
    s.ctxOut = t.ctxOut := by
  simp [State.ctxOut, State.contextImage, State.pending, h, hn, hb, hl]

end Sys2Proof.Machine
end

