-- ==== Sys2Proof/Laws/Decode.lean ====
section
/-! SUPPORT. Command words by their two fields, so that no proof enumerates the 65536 words: enumerate the 256 values of one
field, or use the numbers. -/

namespace Sys2Proof

theorem opField_toNat (w : CmdWord) : (opField w).toNat = w.toNat / 256 := by
  have := w.isLt
  simp only [opField, BitVec.extractLsb'_toNat, Nat.shiftRight_eq_div_pow]
  omega

theorem argField_toNat (w : CmdWord) : (argField w).toNat = w.toNat % 256 := by
  simp [argField, BitVec.extractLsb'_toNat]

/-- A command word is its opcode field followed by its operand field (30_encoding.md R82). -/
theorem word_eq_fields (w : CmdWord) : w = opField w ++ argField w := by
  apply BitVec.eq_of_toNat_eq
  have := w.isLt
  have h := argField_toNat w
  rw [BitVec.toNat_append, ← Nat.shiftLeft_add_eq_or_of_lt (by have := (argField w).isLt; omega), Nat.shiftLeft_eq,
    opField_toNat, h]
  omega

/-- What the decoder's verdict says of the two fields, with the row of the opcode map for each command (30_encoding.md R96). -/
theorem decode_fields (w : CmdWord) :
    match decode w with
    | .command .init => opField w = 0x01 ∧ argField w = 0
    | .command (.push b) => opField w = 0x02 ∧ argField w = b
    | .command .final => opField w = 0x03 ∧ argField w = 0
    | .command .finalr => opField w = 0x04 ∧ argField w = 0
    | .command .ctxload => opField w = 0x05 ∧ argField w = 0
    | .reserved .operand => (opField w = 0x01 ∨ opField w = 0x03 ∨ opField w = 0x04 ∨ opField w = 0x05) ∧ argField w ≠ 0
    | .reserved .opcode =>
      opField w ≠ 0x01 ∧ opField w ≠ 0x02 ∧ opField w ≠ 0x03 ∧ opField w ≠ 0x04 ∧ opField w ≠ 0x05 := by
  unfold decode
  generalize opField w = op
  generalize argField w = arg
  dsimp only
  split_ifs <;> simp_all

end Sys2Proof
end

