-- ==== Sys2Proof/Laws/PerInstr.lean ====
section
/-! SUPPORT. What holds of every instruction as syntax, one lemma per constructor: its word is a legal word of its own row of the
opcode map (30_encoding.md R84). -/

namespace Sys2Proof.Laws.EncodedWord

/-- The instruction is well formed, its row is a row of the opcode map, its word matches that row and is legal. -/
def Statement (i : Instr) : Prop :=
  i.wellFormed = true ∧ i.row ∈ opRows ∧ i.row.matchesWord (encode i) = true ∧ legalWord (encode i) = true

theorem init : Statement .init := by unfold Statement; decide

/-- The word of PUSH matches its row for every operand byte. -/
theorem push_word (b : Byte) :
    (Instr.row (.push b)).matchesWord (encode (.push b)) = true ∧ legalWord (encode (.push b)) = true := by
  have key : ∀ c : Fin 256, (Instr.row (.push (BitVec.ofFin c))).matchesWord (encode (.push (BitVec.ofFin c))) = true ∧
      legalWord (encode (.push (BitVec.ofFin c))) = true := by decide +kernel
  exact key b.toFin

theorem push (b : Byte) : Statement (.push b) := ⟨rfl, by simp [Instr.row, opRows], push_word b⟩

theorem final : Statement .final := by unfold Statement; decide

theorem finalr : Statement .finalr := by unfold Statement; decide

theorem ctxload : Statement .ctxload := by unfold Statement; decide

end Sys2Proof.Laws.EncodedWord
end

