-- ==== Sys2Proof/Laws/Stream.lean ====
section
/-! SUPPORT. Chaining over a byte sequence: what emitting a sequence of bytes does to H and the Pending Buffer. -/

namespace Sys2Proof.Machine

@[simp] theorem getElem_blockAt (s : List Byte) (k i : Nat) (hi : i < 64) : (blockAt s k)[i] = s.getD (64 * k + i) 0 := by
  simp [blockAt]

/-- A block that lies inside the first sequence is the same in a longer one. -/
theorem blockAt_append (s u : List Byte) (k : Nat) (hk : 64 * k + 64 ≤ s.length) : blockAt (s ++ u) k = blockAt s k := by
  apply Vector.ext
  intro i hi
  rw [getElem_blockAt, getElem_blockAt, List.getD_eq_getElem?_getD, List.getD_eq_getElem?_getD,
    List.getElem?_append_left (by omega)]

theorem blockAt_drop (s : List Byte) (t k : Nat) : blockAt (s.drop (64 * t)) k = blockAt s (t + k) := by
  apply Vector.ext
  intro i hi
  rw [getElem_blockAt, getElem_blockAt, List.getD_eq_getElem?_getD, List.getD_eq_getElem?_getD, List.getElem?_drop,
    show 64 * t + (64 * k + i) = 64 * (t + k) + i by omega]

@[simp] theorem chain_zero (h : HashState) (s : List Byte) : chain h s 0 = h := by simp only [chain]

theorem chain_succ (h : HashState) (s : List Byte) (t : Nat) :
    chain h s (t + 1) = compress (chain h s t) (blockAt s t) := by simp only [chain]

theorem chain_append (h : HashState) (s u : List Byte) (t : Nat) (ht : 64 * t ≤ s.length) :
    chain h (s ++ u) t = chain h s t := by
  induction t with
  | zero => simp
  | succ t ih => rw [chain_succ, chain_succ, ih (by omega), blockAt_append _ _ _ (by omega)]

theorem chain_add (h : HashState) (s : List Byte) (a b : Nat) :
    chain h s (a + b) = chain (chain h s a) (s.drop (64 * a)) b := by
  induction b with
  | zero => simp
  | succ b ih => rw [← Nat.add_assoc]; rw [chain_succ, chain_succ, ih, blockAt_drop]

/-- Emitting bytes onto a Pending Buffer: H is chained over the whole blocks of PB ++ bytes, and what is left over is the new
Pending Buffer. -/
theorem State.emitAll_holds {s : State} {pb : List Byte} (h : s.Holds pb) (bs : List Byte) :
    (State.emitAll bs s).h = chain s.h (pb ++ bs) ((pb ++ bs).length / 64) ∧
    (State.emitAll bs s).Holds ((pb ++ bs).drop (64 * ((pb ++ bs).length / 64))) := by
  induction bs using List.reverseRecOn with
  | nil =>
    have := h.length_lt
    have e : (pb ++ ([] : List Byte)).length / 64 = 0 := by simp; omega
    rw [e]; simpa [State.emitAll] using h
  | append_singleton bs b ih =>
    obtain ⟨ihh, ihp⟩ := ih
    rw [State.emitAll_append, ← List.append_assoc]
    generalize pb ++ bs = all at ihh ihp ⊢
    obtain ⟨t, ht⟩ : ∃ t, all.length / 64 = t := ⟨_, rfl⟩
    rw [ht] at ihh ihp
    have hdl : (all.drop (64 * t)).length = all.length % 64 := by simp; omega
    have hda : all.drop (64 * t) ++ [b] = (all ++ [b]).drop (64 * t) := by rw [List.drop_append_of_le_length (by omega)]
    have hca : chain s.h (all ++ [b]) t = chain s.h all t := chain_append s.h all [b] t (by omega)
    rw [State.emitAll_singleton]
    by_cases hf : all.length % 64 = 63
    · have ht1 : (all ++ [b]).length / 64 = t + 1 := by simp; omega
      obtain ⟨e1, e2⟩ := State.emit_full ihp b (by omega)
      rw [ht1]
      refine ⟨?_, ?_⟩
      · rw [e1, ihh, chain_succ, hca, hda, blockAt_drop, Nat.add_zero]
      · rw [List.drop_eq_nil_of_le (by simp; omega)]; exact e2
    · have ht1 : (all ++ [b]).length / 64 = t := by simp; omega
      obtain ⟨e1, e2⟩ := State.emit_within ihp b (by omega)
      rw [ht1]
      refine ⟨?_, ?_⟩
      · rw [e1, ihh, hca]
      · rw [← hda]; exact e2

end Sys2Proof.Machine
end

