-- ==== Sys2Proof/Laws/Sequences.lean ====
section
/-! SUPPORT. Command sequences one command at a time, and one emission of the sequencer. -/

namespace Sys2Proof.Machine

theorem execAll_nil (s : State) : execAll [] s = .next s := rfl

theorem execAll_cons {i : Instr} {s t : State} (is : List Instr) (h : exec i s = .next t) :
    execAll (i :: is) s = execAll is t := by
  simp [execAll, h]

theorem execAll_append {xs : List Instr} {s t : State} (ys : List Instr) (h : execAll xs s = .next t) :
    execAll (xs ++ ys) s = execAll ys t := by
  induction xs generalizing s with
  | nil =>
    simp only [execAll, Host.Outcome.next.injEq] at h
    subst h; rfl
  | cons i xs ih =>
    obtain ⟨u, hu⟩ := exec_next i s
    rw [execAll_cons _ hu] at h
    rw [List.cons_append, execAll_cons _ hu, ih h]

/-- emit neither reads nor writes LEN (41_buffer_commands.md R143). -/
theorem State.emit_withLen (b : Byte) (s : State) (l : DWord) :
    ({ s with len := l } : State).emit b = { s.emit b with len := l } := by
  unfold State.emit
  by_cases h : s.n = 63
  · rw [if_pos h, if_pos h]; unfold State.emptyBuffer State.completeBlock State.storeByte; rfl
  · rw [if_neg h, if_neg h]; unfold State.countByte State.storeByte; rfl

theorem State.emitAll_withLen (bs : List Byte) (s : State) (l : DWord) :
    State.emitAll bs { s with len := l } = { State.emitAll bs s with len := l } := by
  induction bs generalizing s with
  | nil => rfl
  | cons b bs ih => simp only [State.emitAll]; rw [State.emit_withLen, ih]

/-- The zero fill after the marker is the z zero bytes of pad (42_finalization.md R161, R164). -/
theorem State.padZeros_eq_replicate (s : State) :
    ((s.emit padMarker).padZeros 64) = State.emitAll (List.replicate (padZeroCount s.n.toNat) 0) (s.emit padMarker) := by
  rw [State.padZeros_eq _ _ (by have := (56 - (s.emit padMarker).n).isLt; omega), State.emit_n, fill_to_56, fill_succ]
  congr 2
  have := s.n.isLt; unfold padZeroCount; omega

theorem Seq.run_add (a b : Nat) (q : Seq) : Seq.run (a + b) q = Seq.run b (Seq.run a q) := by
  induction a generalizing q with
  | zero => simp [Seq.run]
  | succ a ih => rw [Nat.succ_add]; simp only [Seq.run]; exact ih _

/-- One emission of the sequencer, with the COMPRESS phase it may need, is `emit`; the COMPRESS phase runs when N = 63. -/
theorem Seq.run_put (b : Byte) (p : Phase) (q : Seq) :
    ∃ back, Seq.run (if q.st.n = 63 then 1 else 0) (Seq.put b p q) =
      { q with st := q.st.emit b, phase := p, back := back,
               compressions := q.compressions + if q.st.n = 63 then 1 else 0 } := by
  unfold Seq.put State.emit
  by_cases h : q.st.n = 63
  · simp only [if_pos h, Seq.run, Seq.micro]
    exact ⟨_, rfl⟩
  · simp only [if_neg h, Seq.run]
    exact ⟨_, rfl⟩

end Sys2Proof.Machine
end

