-- ==== Sys2Proof/Tests/Slice0.lean ====
section
/-! SUPPORT. The model's own tests. Expected values come from spec/95_test_vectors.md (the section is named at each test) or from
an encoding written out by hand; then one witness per statement that has hypotheses. -/

namespace Sys2Proof.Tests

open Sys2Proof Sys2Proof.Machine

/-! ### Small states -/

/-- ACTIVE with the bytes `pb` pending and LEN = `len`. -/
def holding (pb : List Byte) (len : DWord) : State :=
  { State.reset with n := BitVec.ofNat 6 pb.length, buf := bufWrite [] 0 pb, len := len }

/-- `k` bytes 0x61, the letter a. -/
def letters (k : Nat) : List Byte := List.replicate k 0x61

/-- FINALIZED after a stream of `len` bytes; its chaining value is of no matter here. -/
def finalized (len : DWord) : State := { State.reset with len := len, fin := true, digest := some (ser iv) }

/-- FAULT, ILLEGAL_COMMAND. -/
def faulted : State := { State.reset with err := true, errCode := .illegalCommand, digestDraw := 1 }

/-- A command word and an image presented on the input ports. -/
def present (cmd : CmdWord) (v : BitVec 768) (s : State) : State := { s with pins := ⟨false, true, cmd, v⟩ }

/-- The reset pin asserted, with a command on `cmd`. -/
def asserting (s : State) : State := { s with pins := ⟨true, true, 0x0261, 0⟩ }

/-- An image from its words; words 0..4 are IV, the missing ones 0. -/
def imageOf (w5 w6 w7 : Word) (rest : List Word) : BitVec 768 := BitVec.ofNat 768 (packWords (iv.words ++ [w5, w6, w7] ++ rest))

/-- The state a next outcome holds; the reset state for a stop, which no test meets. -/
def stateOf : Host.Outcome State Fault Refusal → State
  | .next s => s
  | .fault _ => State.reset
  | .refused _ => State.reset

/-! ### Well-formedness, decoding, encoding -/

/-- The check on words accepts the five commands, PUSH with any operand (95_test_vectors.md 4.1). -/
theorem test_legal_words : ([0x0100, 0x0200, 0x0261, 0x02FF, 0x0300, 0x0400, 0x0500] : List CmdWord).all legalWord = true := by
  decide

/-- ... and refuses an ill-formed word for each check: an opcode below, an opcode above, an operand for each of INIT, FINAL,
FINALR and CTXLOAD. -/
theorem test_wellformed_refuses_reserved_words :
    ([0x0000, 0x0600, 0xFFFF, 0x0101, 0x0301, 0x0401, 0x0502] : List CmdWord).any legalWord = false := by
  decide

theorem test_wellformed_instructions :
    Instr.wellFormed .init = true ∧ Instr.wellFormed (.push 0xFF) = true ∧ Instr.wellFormed .final = true ∧
    Instr.wellFormed .finalr = true ∧ Instr.wellFormed .ctxload = true := by decide

/-- 30_encoding.md R85: op 00000001, arg 00000000. -/
theorem test_decode_init : decode 0b0000000100000000 = .command .init := by decide

/-- 30_encoding.md R86: op 00000010, arg 01100001, the byte 0x61. -/
theorem test_decode_push : decode 0b0000001001100001 = .command (.push 0x61) := by decide

/-- 30_encoding.md R87: op 00000011, arg 00000000. -/
theorem test_decode_final : decode 0b0000001100000000 = .command .final := by decide

/-- 30_encoding.md R88: op 00000100, arg 00000000. -/
theorem test_decode_finalr : decode 0b0000010000000000 = .command .finalr := by decide

/-- 30_encoding.md R89: op 00000101, arg 00000000. -/
theorem test_decode_ctxload : decode 0b0000010100000000 = .command .ctxload := by decide

/-- The reserved words of 95_test_vectors.md 4.1. -/
theorem test_decode_reserved_opcodes :
    ([0x0000, 0x0001, 0x0600, 0x0661, 0x0700, 0x1000, 0x8100, 0x8200, 0xFF00, 0xFFFF] : List CmdWord).all
      (fun w => decode w == .reserved .opcode) = true := by decide

theorem test_decode_reserved_operands :
    ([0x0101, 0x01FF, 0x0301, 0x0380, 0x0401, 0x0502] : List CmdWord).all (fun w => decode w == .reserved .operand) = true := by
  decide

theorem test_table_words :
    decodeTableWord 16 0x0100 = some .init ∧ decodeTableWord 16 0x02BB = some (.push 0xBB) ∧
    decodeTableWord 16 0x0500 = some .ctxload ∧ decodeTableWord 16 0x0600 = none := by decide

/-! ### Primitives and the Compression Engine -/

/-- 95_test_vectors.md 4.2. -/
theorem test_rotate_left : rol32 0x12345678 10 = 0xD159E048 ∧ rol32 0x80000000 1 = 0x00000001 ∧ rol32 0x00000001 31 = 0x80000000 := by
  decide

/-- 95_test_vectors.md 4.2. -/
theorem test_byte_order :
    le32 0x61 0x62 0x63 0x80 = 0x80636261 ∧ bytes32 0xA585119C = [0x9C, 0x11, 0x85, 0xA5] ∧
    bytes64 0x0123456789ABCDEF = [0xEF, 0xCD, 0xAB, 0x89, 0x67, 0x45, 0x23, 0x01] := by decide

/-- 95_test_vectors.md 4.2: LENBITS loses the high three bits of LEN. -/
theorem test_length_bits : lenBits 3 = 0x18 ∧ lenBits 0x2000000000000001 = 8 ∧ lenBits 0xFFFFFFFFFFFFFFFF = 0xFFFFFFFFFFFFFFF8 := by
  decide

/-- 95_test_vectors.md 4.3, the last row. -/
theorem test_boolean_functions :
    [BoolFn.f1, .f2, .f3, .f4, .f5].map (fun f => f.eval 0xAAAAAAAA 0xCCCCCCCC 0xF0F0F0F0) =
      [0x96969696, 0xD8D8D8D8, 0x4B4B4B4B, 0xACACACAC, 0x65656565] := by decide

/-- 95_test_vectors.md 4.4, the third row: step 16 of the left line. -/
theorem test_one_step_of_a_line :
    stepLine ⟨.f2, 0x5A827999, 7, 7⟩ 0 ⟨0x1C283F0C, 0xA8C519B5, 0x1124553D, 0xB8B785D6, 0x6B9E4E09⟩ =
      ⟨0x6B9E4E09, 0xDC455C4C, 0xA8C519B5, 0x9154F444, 0xB8B785D6⟩ := by decide

/-- 95_test_vectors.md 4.4, the fourth row: step 16 of the right line. -/
theorem test_one_step_of_the_right_line :
    stepLine ⟨.f4, 0x5C4DD124, 6, 9⟩ 0 ⟨0xFC163248, 0xF7166D44, 0x17A05994, 0x6F9C0D4C, 0xFB9C1EC9⟩ =
      ⟨0xFB9C1EC9, 0x2C5EA068, 0xF7166D44, 0x8166505E, 0x6F9C0D4C⟩ := by decide

/-- 95_test_vectors.md 4.7: rows n = 55 and n = 63. -/
theorem test_padding :
    pad 55 55 = [0x80, 0xB8, 0x01, 0, 0, 0, 0, 0, 0] ∧
    pad 63 0xFFFFFFFFFFFFFFFF = 0x80 :: (List.replicate 56 0 ++ [0xF8, 0xFF, 0xFF, 0xFF, 0xFF, 0xFF, 0xFF, 0xFF]) := by decide

/-! ### One command each -/

/-- 95_test_vectors.md 4.8, row 5: INIT after FINAL keeps the digest valid. -/
theorem test_init_keeps_the_digest :
    let t := stateOf (exec .init (finalized 3))
    t.h = iv ∧ t.n = 0 ∧ t.len = 0 ∧ t.fin = false ∧ t.digest = some (ser iv) ∧ t.status = 0x04 := by decide

/-- 95_test_vectors.md 4.10, row 12: INIT in FAULT is ignored. -/
theorem test_init_in_fault : exec .init { faulted with n := 2 } = .next { faulted with n := 2 } := by rfl

/-- 95_test_vectors.md 4.9, rows 2 and 3 of the table of images: the third byte of "abc" goes to bits [23:16] of word 8. -/
theorem test_push_appends :
    let t := stateOf (exec (.push 0x63) (holding [0x61, 0x62] 2))
    t.n = 3 ∧ t.len = 3 ∧ t.pending = [0x61, 0x62, 0x63] ∧ t.contextImage.getD 8 0 = 0x00636261 := by decide

/-- 95_test_vectors.md 4.9: PUSH of the 64th letter a with LEN = 2^64 - 1: LEN wraps, the block is compressed, no fault. -/
theorem test_push_completes_the_block_and_wraps :
    let t := stateOf (exec (.push 0x61) (holding (letters 63) 0xFFFFFFFFFFFFFFFF))
    t.h = ⟨0xD42339F0, 0xCE5B9F6F, 0x2874A075, 0xDF67AAF1, 0xC6C1BE1C⟩ ∧ t.n = 0 ∧ t.buf = [] ∧ t.len = 0 ∧ t.err = false := by
  decide +kernel

/-- 95_test_vectors.md 4.8, row 1: FINAL on the empty stream. -/
theorem test_final_of_the_empty_stream :
    let t := stateOf (exec .final State.reset)
    t.h = ⟨0xA585119C, 0x54FCE9C5, 0x97082861, 0x48F5E87E, 0x318D25B2⟩ ∧ t.n = 0 ∧ t.len = 0 ∧ t.status = 0x05 ∧
    t.digest = some #v[0x9C, 0x11, 0x85, 0xA5, 0xC5, 0xE9, 0xFC, 0x54, 0x61, 0x28, 0x08, 0x97, 0x7E, 0xE8, 0xF5, 0x48,
                       0xB2, 0x25, 0x8D, 0x31] := by decide +kernel

/-- 95_test_vectors.md P5: FINAL at N = 56 compresses two blocks. -/
theorem test_final_with_two_padding_blocks :
    let t := stateOf (exec .final (holding (letters 56) 56))
    t.h = ⟨0xB43423E7, 0x70CC836C, 0xE179F9BE, 0x6C705354, 0xBE88B895⟩ ∧ t.n = 0 ∧ t.len = 56 ∧ t.fin = true := by
  decide +kernel

/-- 95_test_vectors.md 4.8, row 4: FINALR of "abc". -/
theorem test_finalr_latches_then_restarts :
    let t := stateOf (exec .finalr (holding [0x61, 0x62, 0x63] 3))
    t.h = iv ∧ t.n = 0 ∧ t.len = 0 ∧ t.status = 0x04 ∧
    t.digest = some #v[0x8E, 0xB2, 0x08, 0xF7, 0xE0, 0x5D, 0x98, 0x7A, 0x9B, 0x04, 0x4A, 0x8E, 0x98, 0xC6, 0xB0, 0x87,
                       0xF1, 0x5A, 0x0B, 0xFC] := by decide +kernel

/-- 95_test_vectors.md 4.10, row 5: FINALR after FINAL. -/
theorem test_finalr_after_final :
    let t := stateOf (exec .finalr (finalized 0))
    t.status = 0x23 ∧ t.digest = none ∧ t.fin = true := by decide

/-- 95_test_vectors.md 4.9: the image of "ab" with bytes beyond N set, loaded in FINALIZED. -/
theorem test_ctxload_ignores_unused_bytes :
    let v := imageOf 2 0 2 ([0xDEAD6261, 0xFFFFFFFF] ++ List.replicate 13 0 ++ [0x12345678])
    let t := stateOf (exec .ctxload (present 0x0500 v (finalized 3)))
    t.h = iv ∧ t.n = 2 ∧ t.pending = [0x61, 0x62] ∧ t.len = 2 ∧ t.status = 0x04 ∧ t.ctxOut = imageOf 2 0 2 [0x00006261] := by
  decide +kernel

/-- 95_test_vectors.md 4.9: the two invalid images, N different from LEN mod 64 and reserved bit 6 set. -/
theorem test_ctxload_of_an_invalid_image :
    (stateOf (exec .ctxload (present 0x0500 (imageOf 2 0 3 []) State.reset))).status = 0x32 ∧
    (stateOf (exec .ctxload (present 0x0500 (imageOf 2 0 0x42 [0x6261]) (finalized 0)))).status = 0x33 := by decide +kernel

/-! ### One step -/

/-- A presented table word is what the next step runs. -/
theorem test_step_runs_the_presented_word :
    (stateOf (step (State.reset.withFetchWord 16 0x0261))).pending = [0x61] := by decide

/-- 95_test_vectors.md 4.10, rows 1 and 6: a reserved word faults, and wins over the FIN check. -/
theorem test_step_on_a_reserved_word :
    (stateOf (step (present 0x0600 0 (holding [0x61, 0x62] 2)))).status = 0x12 ∧
    (stateOf (step (present 0x0301 0 (finalized 0)))).status = 0x13 := by decide

/-- 95_test_vectors.md P6: only RST leaves FAULT. -/
theorem test_step_on_reset :
    (stateOf (step (asserting faulted))).status = 0x00 ∧ (stateOf (step (present 0x0100 0 faulted))).status = 0x12 := by decide

/-- The host's samples come one per step. -/
theorem test_step_takes_the_next_sample :
    (stateOf (step { State.reset with script := [beat .init 0, beat .final 0] })).pins = beat .init 0 := by decide +kernel

/-- 70_reset_and_hazards.md R233. -/
theorem test_reset :
    State.reset.status = 0x00 ∧ State.reset.h = iv ∧ State.reset.n = 0 ∧ State.reset.len = 0 ∧ Memory.wf State.reset.buf := by decide

/-- 43_context.md R181: the image of the reset state (95_test_vectors.md 4.9). -/
theorem test_ctx_out_after_reset : State.reset.ctxOut = imageOf 0 0 0 [] := by decide +kernel

/-- Each of the five commands runs as the first instruction after reset. -/
theorem test_first_command_after_reset :
    ([0x0100, 0x0261, 0x0300, 0x0400, 0x0500].map fun w => (stateOf (step (State.reset.withFetchWord 16 w))).err) =
      [false, false, false, false, false] := by decide +kernel

/-! ### Witnesses: for each statement with hypotheses, states and operands that meet all of them, at the boundaries of its clauses -/

theorem witness_DecodeAndEncodeAgree : Instr.wellFormed (.push 0xFF) = true ∧ decode 0x02FF = .command (.push 0xFF) := by decide

theorem witness_ReservedWordsAreThoseThatMatchNoRow :
    (decode 0x00FF = .reserved .opcode ∧ (0x00FF : CmdWord).toNat / 256 = 0) ∧
    (decode 0x0600 = .reserved .opcode ∧ (0x0600 : CmdWord).toNat / 256 = 6) ∧
    (decode 0x0101 = .reserved .operand ∧ decode 0x05FF = .reserved .operand) ∧
    (decode 0x0500 = .command .ctxload ∧ legalWord 0x0500 = true) ∧
    (opRows.filter fun r => r.matchesWord 0x0200) = [⟨"PUSH", 0x0200, 0xFF00⟩] := by decide

theorem witness_StepRunsTheDecodedCommand :
    let s := present 0x02FF 0 State.reset
    (Instr.wellFormed (.push 0xFF) = true ∧ s.pins.rst = false ∧ s.pins.cmdValid = true ∧ decode s.pins.cmd = .command (.push 0xFF)) ∧
    s.script = [] ∧ ({ s with script := [beat .init 0] } : State).script = beat .init 0 :: [] := by decide +kernel

theorem witness_NothingChangesBetweenBeats : State.reset.pins.rst = false ∧ State.reset.pins.cmdValid = false := by decide

theorem witness_ReservedWordRaisesIllegalCommand :
    let s := present 0x0301 0 (finalized 0)
    s.pins.rst = false ∧ s.pins.cmdValid = true ∧ s.err = false ∧ legalWord s.pins.cmd = false := by decide +kernel

theorem witness_ResetPinLeavesTheResetState : (asserting faulted).pins.rst = true := by decide

theorem witness_InitialHashingStateIsEstablished :
    (asserting faulted).pins.rst = true ∧ (finalized 3).err = false ∧
    ((holding [0x61] 1).err = false ∧ (holding [0x61] 1).fin = false) ∧ State.reset.InitialHashing := by
  unfold State.InitialHashing; decide

/-- The invariant in four kinds of state: ACTIVE below and at the last offset, FINALIZED, FAULT. -/
theorem witness_InvariantIsKeptByEveryStep :
    (holding (letters 55) 55).Inv ∧ (holding (letters 63) 63).Inv ∧ (finalized 3).Inv ∧ faulted.Inv ∧
    (step (holding (letters 63) 63)) = .next (stateOf (step (holding (letters 63) 63))) := by
  refine ⟨?_, ?_, ?_, ?_, rfl⟩ <;> constructor <;> (try unfold State.BufferIsPending) <;> (try unfold State.FillMatchesLen) <;>
    (try unfold State.ErrMatchesCode) <;> (try unfold State.FaultHidesDigest) <;> (try unfold State.MisuseIsFinalized) <;>
    (try unfold State.FinalizedShowsDigest) <;> decide

theorem witness_FaultStateIgnoresEveryCommand :
    faulted.err = true ∧ faulted.pins.rst = false ∧ faulted.Inv :=
  ⟨rfl, rfl, witness_InvariantIsKeptByEveryStep.2.2.2.1⟩

theorem witness_OnlyTheResetPinLeavesFault :
    (faulted.err = true ∧ faulted.pins.rst = false ∧ step faulted = .next (stateOf (step faulted))) ∧
    ((asserting faulted).err = true ∧ (asserting faulted).pins.rst = true ∧
      step (asserting faulted) = .next (stateOf (step (asserting faulted)))) :=
  ⟨⟨rfl, rfl, rfl⟩, ⟨rfl, rfl, rfl⟩⟩

/-- One state per line of the priority list: ignored, reserved, misuse, invalid image, no fault. -/
theorem witness_FaultChecksHaveTheStatedPriority :
    ([present 0x0301 0 { finalized 0 with err := true, errCode := .badContext, digest := none },
      present 0x0301 0 (finalized 0), present 0x0261 0 (finalized 0), present 0x0500 (1 <<< 224) (finalized 0),
      present 0x0100 0 (finalized 0)].map fun s =>
        (s.pins.rst, s.pins.cmdValid, (stateOf (step s)).err, (stateOf (step s)).errCode)) =
    [(false, true, true, .badContext), (false, true, true, .illegalCommand), (false, true, true, .useAfterFinal),
     (false, true, true, .badContext), (false, true, false, .noFault)] := by decide +kernel

theorem witness_FaultsArePrecise :
    let s := present 0x0600 0 (holding [0x61, 0x62] 2)
    step s = .next (stateOf (step s)) ∧ s.err = false ∧ (stateOf (step s)).err = true := ⟨rfl, rfl, rfl⟩

theorem witness_LegalCommandsNeverFail :
    ((finalized 0).err = false ∧ needsActive .init = false) ∧
    ((holding [0x61] 1).err = false ∧ (needsActive .final = true → (holding [0x61] 1).fin = false)) ∧
    (needsActive .ctxload = false ∧ ctxValid (imageOf 66 0 2 [0x6261]) = true) := by decide +kernel

theorem witness_UseAfterFinalFaults :
    ((finalized 0).err = false ∧ (finalized 0).fin = true ∧ (Instr.finalr = .final ∨ Instr.finalr = .finalr)) ∧
    exec .final faulted = .next faulted ∧
    (exec .init { faulted with fin := true, errCode := .useAfterFinal } =
      .next { faulted with fin := true, errCode := .useAfterFinal }) := ⟨by decide, rfl, rfl⟩

theorem witness_InitRestoresTheInitialHashingState :
    (finalized 3).err = false ∧ faulted.err = true ∧ State.reset.InitialHashing ∧ State.reset.fin = false := by
  unfold State.InitialHashing; decide

theorem witness_ResetAndInitDifferOnlyInLifecycleAndOutput :
    (faulted.Inv ∧ faulted.err = true) ∧ ((finalized 3).Inv ∧ (finalized 3).err = false) ∧
    ((holding (letters 55) 55).Inv ∧ (holding (letters 55) 55).dvalid = false) ∧
    (asserting (finalized 3)).pins.rst = true ∧ step (asserting faulted) = .next (stateOf (step (asserting faulted))) :=
  have w := witness_InvariantIsKeptByEveryStep
  ⟨⟨w.2.2.2.1, rfl⟩, ⟨w.2.2.1, rfl⟩, ⟨w.1, rfl⟩, rfl, rfl⟩

/-- The fill counts at the boundaries of every statement about the buffer: 0, 55, 56, 62, 63. -/
theorem witness_buffers :
    ([0, 55, 56, 62, 63].map fun k => ((holding (letters k) 0).n.toNat, (holding (letters k) 0).err, (holding (letters k) 0).fin)) =
      [(0, false, false), (55, false, false), (56, false, false), (62, false, false), (63, false, false)] ∧
    (holding (letters 0) 0).BufferIsPending ∧ (holding (letters 55) 0).BufferIsPending ∧
    (holding (letters 56) 0).BufferIsPending ∧ (holding (letters 62) 0).BufferIsPending ∧
    (holding (letters 63) 0).BufferIsPending := by unfold State.BufferIsPending; decide

theorem witness_PushStoresTheByteAtTheFillCount :
    ((holding [] 0).err = false ∧ (holding [] 0).fin = false ∧ (holding [] 0).n ≠ 63) ∧
    ((holding (letters 62) 62).err = false ∧ (holding (letters 62) 62).fin = false ∧ (holding (letters 62) 62).n ≠ 63) := by decide

theorem witness_PushAtOffset63CompletesTheBlock :
    let s := holding (letters 63) 63
    let block := blockAt (letters 63 ++ [0x62]) 0
    s.err = false ∧ s.fin = false ∧ s.n = 63 ∧ s.BufferIsPending ∧
    ∀ k : Fin 64, block[k.val] = if k.val = 63 then 0x62 else (Memory.read s.buf k.val).getD 0 := by
  unfold State.BufferIsPending; decide +kernel

theorem witness_EmitAppendsToThePendingBuffer :
    ((holding [] 0).pending ++ [0x61]).length = 1 ∧ ((holding (letters 63) 0).pending ++ [0x61]).length = 64 ∧
    (holding [] 0).BufferIsPending ∧ (holding (letters 63) 0).BufferIsPending :=
  ⟨rfl, rfl, witness_buffers.2.1, witness_buffers.2.2.2.2.2⟩

theorem witness_LengthBitsAreEightTimesTheLength :
    (0x1FFFFFFFFFFFFFFF : DWord).toNat < 2 ^ 61 ∧ (lenBits 0x1FFFFFFFFFFFFFFF).toNat = 8 * 0x1FFFFFFFFFFFFFFF ∧
    ¬ (0x2000000000000000 : DWord).toNat < 2 ^ 61 ∧ lenBits 0x2000000000000000 = 0 := by decide

theorem witness_PaddingHasTheStatedShape :
    ([0, 55, 56, 63].map fun n => (decide (n < 64), (pad n 0).length, (letters n ++ pad n 0).length)) =
      [(true, 64, 64), (true, 9, 64), (true, 72, 128), (true, 65, 128)] := by decide

/-- ACTIVE at reset: FINAL, FINALR and the statements about them have a state to speak of. -/
theorem witness_FinalAndFinalr : State.reset.err = false ∧ State.reset.fin = false := by decide

/-- The padded block of "abc" as 95_test_vectors.md 4.7 prints it, and those of N = 0 and N = 55. -/
theorem witness_FinalCompressesOnePaddedBlock :
    ∀ c ∈ ([([], 0, 0x80 :: List.replicate 63 0),
            ([0x61, 0x62, 0x63], 3, [0x61, 0x62, 0x63, 0x80] ++ List.replicate 52 0 ++ [0x18, 0, 0, 0, 0, 0, 0, 0]),
            (letters 55, 55, letters 55 ++ [0x80, 0xB8, 0x01, 0, 0, 0, 0, 0, 0])] : List (List Byte × DWord × List Byte)),
      let s := holding c.1 c.2.1
      s.err = false ∧ s.fin = false ∧ s.buf.map Prod.fst = List.range s.n.toNat ∧ s.n.toNat ≤ 55 ∧
      ∀ k : Fin 64, (blockAt c.2.2 0)[k.val] =
        if k.val < s.n.toNat then (Memory.read s.buf k.val).getD 0
        else if k.val = s.n.toNat then 0x80
        else if k.val < 56 then 0x00
        else (s.len <<< 3).extractLsb' (8 * (k.val - 56)) 8 := by decide +kernel

/-- The two padded blocks of N = 56, as 95_test_vectors.md 4.7 prints them, and those of N = 63. -/
theorem witness_FinalCompressesTwoPaddedBlocks :
    ∀ c ∈ ([(letters 56, 56, letters 56 ++ 0x80 :: List.replicate 7 0, List.replicate 56 0 ++ [0xC0, 0x01, 0, 0, 0, 0, 0, 0]),
            (letters 63, 63, letters 63 ++ [0x80], List.replicate 56 0 ++ [0xF8, 0x01, 0, 0, 0, 0, 0, 0])] :
          List (List Byte × DWord × List Byte × List Byte)),
      let s := holding c.1 c.2.1
      s.err = false ∧ s.fin = false ∧ s.buf.map Prod.fst = List.range s.n.toNat ∧ 56 ≤ s.n.toNat ∧
      (∀ k : Fin 64, (blockAt c.2.2.1 0)[k.val] =
        if k.val < s.n.toNat then (Memory.read s.buf k.val).getD 0 else if k.val = s.n.toNat then 0x80 else 0x00) ∧
      (∀ k : Fin 64, (blockAt c.2.2.2 0)[k.val] =
        if k.val < 56 then (0x00 : Byte) else (s.len <<< 3).extractLsb' (8 * (k.val - 56)) 8) := by decide +kernel

theorem witness_DigestLatchIsWrittenOnlyByFinalization :
    (stateOf (exec .init (finalized 3))).digest = (finalized 3).digest ∧
    (stateOf (exec .final (finalized 3))).err = true ∧ (stateOf (exec .final State.reset)).digest ≠ none := by decide +kernel

/-- Images at the ends of N' (0 and 63), for CTXLOAD of a valid image. -/
theorem witness_CtxloadReplacesTheHashingState :
    ([imageOf 0 0 0 [], imageOf 2 0 2 [0x6261], imageOf 0xFFFFFFFF 0xFFFFFFFF 63 (List.replicate 16 0x61616161)].map fun v =>
      let s := State.reset.driveCtx v
      (s.err, s.pins.ctxIn.extractLsb' 230 26 == 0, s.pins.ctxIn.extractLsb' 224 6 == s.pins.ctxIn.extractLsb' 160 6,
       (s.pins.ctxIn.extractLsb' 224 6).toNat)) =
      [(false, true, true, 0), (false, true, true, 2), (false, true, true, 63)] := by decide +kernel

/-- An image invalid by each of the two conditions, and one that raises the fault. -/
theorem witness_BadContextIsRaisedExactlyOnAnInvalidImage :
    (imageOf 2 0 0x42 []).extractLsb' 230 26 ≠ 0 ∧
    (imageOf 2 0 3 []).extractLsb' 224 6 ≠ (imageOf 2 0 3 []).extractLsb' 160 6 ∧
    (stateOf (exec .ctxload (present 0x0500 (imageOf 2 0 3 []) State.reset))).errCode = .badContext ∧
    State.reset.errCode ≠ .badContext := by decide +kernel

/-- N = 0 and N = 63 for the statements about the context port. -/
theorem witness_ContextPort :
    (holding [] 0).BufferIsPending ∧ (holding (letters 63) 0).BufferIsPending ∧
    (holding (letters 63) 0).ctxOut.extractLsb' (256 + 8 * 62) 8 = 0x61 ∧
    (holding (letters 63) 0).ctxOut.extractLsb' (256 + 8 * 63) 8 = 0x00 :=
  ⟨witness_buffers.2.1, witness_buffers.2.2.2.2.2, by decide +kernel, by decide +kernel⟩

theorem witness_LoadedImageReadsBackWithUnusedBytesCleared :
    let s := present 0x0500 (imageOf 2 0 2 [0xDEAD6261]) State.reset
    s.err = false ∧ exec .ctxload s = .next (stateOf (exec .ctxload s)) ∧ (stateOf (exec .ctxload s)).err = false :=
  ⟨rfl, rfl, by decide +kernel⟩

/-- Two images of "ab" that differ in a byte beyond N only. -/
theorem witness_LoadedImageReadsBackWithUnusedBytesCleared_unused :
    let s := State.reset.driveCtx (imageOf 2 0 2 [0x6261])
    let v := imageOf 2 0 2 [0xDEAD6261]
    v ≠ s.pins.ctxIn ∧ v.extractLsb' 0 256 = s.pins.ctxIn.extractLsb' 0 256 ∧ (v.extractLsb' 224 6).toNat = 2 ∧
    v.extractLsb' (256 + 8 * 0) 8 = s.pins.ctxIn.extractLsb' (256 + 8 * 0) 8 ∧
    v.extractLsb' (256 + 8 * 1) 8 = s.pins.ctxIn.extractLsb' (256 + 8 * 1) 8 := by decide +kernel

/-- Driving the ports changes nothing else: the invariant stays. -/
theorem inv_driveCtx {s : State} (v : BitVec 768) (h : s.Inv) : (s.driveCtx v).Inv :=
  ⟨h.memory, h.pendingOnly, h.fill, h.code, h.hidden, h.misuse, h.shown⟩

theorem witness_LoadingTheOwnImageChangesNothing :
    let s := holding (letters 55) 55
    (s.driveCtx s.ctxOut).Inv ∧ (s.driveCtx s.ctxOut).err = false ∧ (s.driveCtx s.ctxOut).fin = false ∧
    (s.driveCtx s.ctxOut).pins.ctxIn = s.ctxOut :=
  ⟨inv_driveCtx _ witness_InvariantIsKeptByEveryStep.1, rfl, rfl, rfl⟩

theorem witness_FinalizedImageIsLoadableOnlyAtBlockMultiples :
    (finalized 64).Inv ∧ (finalized 64).len.toNat % 64 = 0 ∧ (finalized 3).Inv ∧ (finalized 3).len.toNat % 64 ≠ 0 ∧
    (finalized 3).err = false ∧ (finalized 3).fin = true ∧
    ((finalized 3).driveCtx (finalized 3).ctxOut).pins.ctxIn = (finalized 3).ctxOut := by
  have w := witness_InvariantIsKeptByEveryStep.2.2.1
  exact ⟨⟨w.memory, w.pendingOnly, ⟨fun h => absurd h (by decide), fun _ => rfl⟩, w.code, w.hidden, w.misuse, w.shown⟩, by decide,
    w, by decide, rfl, rfl, rfl⟩

theorem witness_CloneBehavesAsItsSource :
    let src := holding (letters 55) 55
    src.Inv ∧ src.err = false ∧ src.fin = false ∧ (finalized 3).err = false ∧
    Instr.ctxload ∉ [Instr.push 0x61, .final] ∧ Instr.final ∈ [Instr.push 0x61, .final] :=
  ⟨witness_InvariantIsKeptByEveryStep.1, rfl, rfl, rfl, by decide, by decide⟩

theorem witness_RawCompressionThroughTheContextPort :
    let s := State.reset.driveCtx (rawImage ⟨1, 2, 3, 4, 5⟩)
    s.err = false ∧ s.pins.ctxIn = rawImage ⟨1, 2, 3, 4, 5⟩ := ⟨rfl, rfl⟩

/-- The reset state is ACTIVE and in the initial hashing state, for every statement about a stream. -/
theorem witness_Streams : State.reset.err = false ∧ State.reset.fin = false ∧ State.reset.InitialHashing := by
  unfold State.InitialHashing; decide

theorem witness_BooleanFunctionsHaveTheStatedTruthTables : 0 < 32 ∧ 31 < 32 := by decide

theorem witness_StatusPortShowsTheFlags :
    State.reset.Inv ∧ State.reset.status = 0x00 ∧ (finalized 3).Inv ∧ (finalized 3).status = 0x05 ∧ faulted.Inv ∧
    faulted.status = 0x12 := by
  have w := witness_InvariantIsKeptByEveryStep
  refine ⟨?_, by decide, w.2.2.1, by decide, w.2.2.2.1, by decide⟩
  have h := w.1
  exact ⟨Memory.wf_nil, rfl, ⟨fun _ => by decide, fun _ => rfl⟩, h.code, h.hidden, h.misuse, h.shown⟩

theorem witness_DigestPortShowsTheChainingValue : (finalized 3).digest = some (ser iv) := rfl

theorem witness_FillCountIsTheLengthModulo64 : Reachable { State.reset with pins := beat .final 0 } :=
  ⟨beat .final 0, [], 0, rfl⟩

/-- A step that changes H through each of its writers: `rst`, INIT, PUSH at N = 63, FINAL at N = 55 and N = 56, FINALR, CTXLOAD. -/
theorem witness_HashStateHasOnlyTheStatedWriters :
    ([asserting { State.reset with h := ⟨1, 2, 3, 4, 5⟩ },
      present 0x0100 0 { State.reset with h := ⟨1, 2, 3, 4, 5⟩ },
      present 0x0261 0 (holding (letters 63) 63), present 0x0300 0 (holding (letters 55) 55),
      present 0x0300 0 (holding (letters 56) 56), present 0x0400 0 { State.reset with h := ⟨1, 2, 3, 4, 5⟩ },
      present 0x0500 0 State.reset].map fun s => (stateOf (step s)).h != s.h) =
    [true, true, true, true, true, true, true] := by decide +kernel

theorem witness_HashStateHasOnlyTheStatedWriters_buffers :
    (holding (letters 55) 55).BufferIsPending ∧ (holding (letters 56) 56).BufferIsPending := by
  unfold State.BufferIsPending; decide

/-- Every outcome the statement about LEN tells apart: reset, no beat, a fault, and the five commands. -/
theorem witness_LengthCounterHasOnlyTheStatedWriters :
    ([asserting (holding [0x61] 1), holding [0x61] 1, present 0x0600 0 (holding [0x61] 1), present 0x0100 0 (holding [0x61] 1),
      present 0x0262 0 (holding [0x61] 1), present 0x0300 0 (holding [0x61] 1), present 0x0400 0 (holding [0x61] 1),
      present 0x0500 (imageOf 66 0 2 [0x6261]) (holding [0x61] 1)].map fun s => (stateOf (step s)).len) =
    [0, 1, 1, 0, 2, 1, 0, 66] := by decide +kernel

/-- A step for each clause about the flags. -/
theorem witness_FlagsHaveOnlyTheStatedWriters :
    (State.reset.fin = false ∧ (stateOf (step (present 0x0300 0 State.reset))).fin = true) ∧
    ((finalized 3).fin = true ∧ (stateOf (step (present 0x0100 0 (finalized 3)))).fin = false) ∧
    ((finalized 3).fin = true ∧ (stateOf (step (present 0x0500 0 (finalized 3)))).fin = false) ∧
    (faulted.err = true ∧ (stateOf (step (asserting faulted))).err = false) ∧
    (State.reset.errCode ≠ (stateOf (step (present 0x0600 0 State.reset))).errCode) ∧
    ((finalized 3).dvalid = true ∧ (stateOf (step (present 0x0261 0 (finalized 3)))).dvalid = false) ∧
    (State.reset.dvalid = false ∧ (stateOf (step (present 0x0400 0 State.reset))).dvalid = true) := by decide +kernel

/-- A command other than CTXLOAD, a beat with another word, no beat, a reset. -/
theorem witness_ContextInputIsReadOnlyByCtxload :
    Instr.final ≠ .ctxload ∧ (present 0x0501 0 State.reset).pins.cmd ≠ 0x0500 ∧ State.reset.pins.cmdValid = false ∧
    (asserting State.reset).pins.rst = true := by decide +kernel

end Sys2Proof.Tests
end

section
/-! The bit length of the padding: `shl64` and `lenBits` as numbers (00_scope.md R10, R16). -/

namespace Sys2Proof.Machine

theorem shl64_toNat (v : DWord) (n : Nat) : (shl64 v n).toNat = v.toNat * 2 ^ n % 2 ^ 64 := by
  rw [shl64, BitVec.toNat_shiftLeft, Nat.shiftLeft_eq]

theorem lenBits_toNat (len : DWord) : (lenBits len).toNat = 8 * len.toNat % 2 ^ 64 := by
  have hshift : (lenBits len).toNat = len.toNat * 2 ^ 3 % 2 ^ 64 := shl64_toNat len 3
  omega

/-- Below 2^61 bytes the product does not reach 2^64, so nothing is reduced. -/
theorem lenBits_toNat_of_lt (len : DWord) (hlen : len.toNat < 2 ^ 61) : (lenBits len).toNat = 8 * len.toNat := by
  have hprod : 8 * len.toNat < 2 ^ 64 := by omega
  rw [lenBits_toNat, Nat.mod_eq_of_lt hprod]

/-- Settles O21: `lenBits` is a shift by three bits, and below 2^61 no bit is lost. -/
theorem lengthBitsAreEightTimesTheLength : Obligations.LengthBitsAreEightTimesTheLength := by
  unfold Obligations.LengthBitsAreEightTimesTheLength
  exact fun len => ⟨lenBits_toNat len, lenBits_toNat_of_lt len⟩

end Sys2Proof.Machine
end

section
/-! What one command and one sample of the ports can do, as two relations with a constructor per outcome. Every statement about
all steps is a case analysis of these. -/

namespace Sys2Proof.Machine

/-- What a command does when it is neither ignored nor faults (41_buffer_commands.md R141, R142, 42_finalization.md R162, R163,
43_context.md R184). -/
def State.effect (s : State) : Instr → State
  | .init => s.reinit.setFin false
  | .push b => s.absorb b
  | .final => s.finish.setFin true
  | .finalr => s.finish.reinit
  | .ctxload => s.loadImage s.pins.ctxIn

/-- The command passes every check of 41_buffer_commands.md R140 and 43_context.md R185 and has its effect. -/
structure State.Executes (s : State) (i : Instr) : Prop where
  live : s.err = false
  active : needsActive i = true → s.fin = false
  valid : i = .ctxload → ctxValid s.pins.ctxIn = true

/-- The state is one in which the fault `c` can be taken (60_exceptions.md R202, R204). -/
structure State.CanFault (s : State) (c : ErrCode) : Prop where
  live : s.err = false
  cause : c ≠ .noFault
  misuse : c = .useAfterFinal → s.fin = true

/-- The three outcomes of a command. -/
inductive Answers (i : Instr) (s : State) : State → Prop
  | ignored (err : s.err = true) : Answers i s s
  | faulted (c : ErrCode) (can : s.CanFault c) : Answers i s (s.raiseFault c)
  | executed (runs : s.Executes i) : Answers i s (s.effect i)

/-- The outcomes of one sample of the input ports. -/
inductive Samples (s : State) : State → Prop
  | reset (rst : s.pins.rst = true) : Samples s s.rstTransition
  | unchanged (rst : s.pins.rst = false) (quiet : s.pins.cmdValid = false ∨ s.err = true) : Samples s s
  | faulted (rst : s.pins.rst = false) (beat : s.pins.cmdValid = true) (c : ErrCode) (can : s.CanFault c) :
      Samples s (s.raiseFault c)
  | executed (rst : s.pins.rst = false) (beat : s.pins.cmdValid = true) (i : Instr)
      (dec : decode s.pins.cmd = .command i) (runs : s.Executes i) : Samples s (s.effect i)

theorem answers_whenLive {i : Instr} {s : State} {k : State → State} (hk : s.err = false → Answers i s (k s)) :
    Answers i s (s.whenLive k) := by
  rcases whenLive_cases s k with ⟨herr, e⟩ | ⟨herr, e⟩ <;> rw [e]
  · exact .ignored herr
  · exact hk herr

theorem answers_whenActive {i : Instr} {s : State} {k : State → State}
    (hk : s.err = false → s.fin = false → Answers i s (k s)) : Answers i s (s.whenActive k) := by
  rcases whenActive_cases s k with ⟨herr, e⟩ | ⟨herr, hfin, e⟩ | ⟨herr, hfin, e⟩ <;> rw [e]
  · exact .ignored herr
  · exact .faulted _ ⟨herr, by decide, fun _ => hfin⟩
  · exact hk herr hfin

/-- Everything a command can do. -/
theorem exec_answers {i : Instr} {s t : State} (h : exec i s = .next t) : Answers i s t := by
  cases i with
  | init =>
    obtain rfl := Host.Outcome.next.inj h
    exact answers_whenLive fun herr => .executed ⟨herr, nofun, nofun⟩
  | push b =>
    obtain rfl := Host.Outcome.next.inj h
    exact answers_whenActive fun herr hfin => .executed ⟨herr, fun _ => hfin, nofun⟩
  | final =>
    obtain rfl := Host.Outcome.next.inj h
    exact answers_whenActive fun herr hfin => .executed ⟨herr, fun _ => hfin, nofun⟩
  | finalr =>
    obtain rfl := Host.Outcome.next.inj h
    exact answers_whenActive fun herr hfin => .executed ⟨herr, fun _ => hfin, nofun⟩
  | ctxload =>
    obtain rfl := Host.Outcome.next.inj h
    refine answers_whenLive fun herr => ?_
    rcases loadContext_cases s.pins.ctxIn s with ⟨hv, e⟩ | ⟨hv, e⟩ <;> rw [e]
    · exact .executed ⟨herr, nofun, fun _ => hv⟩
    · exact .faulted _ ⟨herr, by decide, nofun⟩

/-- Everything a step can do: one outcome of the present sample, then the host's next sample. -/
theorem step_samples {s t : State} (h : step s = .next t) : ∃ u, Samples s u ∧ t = u.nextPins := by
  rcases step_cases h with ⟨hrst, e⟩ | ⟨hrst, hquiet, e⟩ | ⟨hrst, hbeat, i, u, hdec, hexec, e⟩ | ⟨hrst, hbeat, r, -, e⟩
  · exact ⟨_, .reset hrst, e⟩
  · exact ⟨_, .unchanged hrst (.inl hquiet), e⟩
  · refine ⟨u, ?_, e⟩
    cases exec_answers hexec with
    | ignored herr => exact .unchanged hrst (.inr herr)
    | faulted c can => exact .faulted hrst hbeat c can
    | executed runs => exact .executed hrst hbeat i hdec runs
  · refine ⟨_, ?_, e⟩
    rcases whenLive_cases s (State.raiseFault .illegalCommand) with ⟨herr, hans⟩ | ⟨herr, hans⟩ <;> rw [hans]
    · exact .unchanged hrst (.inr herr)
    · exact .faulted hrst hbeat _ ⟨herr, by decide, nofun⟩

/-- No command that has its effect touches the fault flag. -/
@[simp] theorem State.effect_err (s : State) (i : Instr) : (s.effect i).err = s.err := by
  cases i <;> simp [State.effect]

@[simp] theorem State.effect_errCode (s : State) (i : Instr) : (s.effect i).errCode = s.errCode := by
  cases i <;> simp [State.effect]

theorem samplePins_rst {s : State} (h : s.pins.rst = true) : samplePins s = .next s.rstTransition := if_pos h

/-- Settles O7: the sample is the reset transition, whatever else is on the ports. -/
theorem resetPinLeavesTheResetState : Obligations.ResetPinLeavesTheResetState := by
  unfold Obligations.ResetPinLeavesTheResetState
  intro s hrst
  rw [step, samplePins_rst hrst, State.rstTransition, State.reset, iv, afterNext]

end Sys2Proof.Machine
end

section
/-! The padding as one emitted sequence (42_finalization.md R161, R162), and what FINAL and FINALR leave of it. -/

namespace Sys2Proof.Machine

theorem pad_length (n : Nat) (len : DWord) : (pad n len).length = padZeroCount n + 9 := by
  simp [pad, bytes64]

/-- The stream and its padding fill one block when N <= 55, else two. -/
theorem fill_add_pad_length (n : BitVec 6) (len : DWord) :
    n.toNat + (pad n.toNat len).length = 64 * if n.toNat ≤ 55 then 1 else 2 := by
  have hlt := n.isLt
  rw [pad_length, padZeroCount]
  split <;> omega

/-- PAD_MARK, PAD_ZERO and PAD_LEN emit pad(N, LEN), then the digest is latched. -/
theorem State.finish_eq_latch (s : State) : s.finish = (State.emitAll (pad s.n.toNat s.len) s).latch := by
  rw [State.finish, State.padZeros_eq_replicate, pad, State.emitAll, State.emitAll_append]

theorem State.finish_h (s : State) : s.finish.h = (State.emitAll (pad s.n.toNat s.len) s).h := by
  rw [State.finish_eq_latch, State.latch_h]

/-- H after the padding, chained over the one or two blocks that the padding completes. -/
theorem State.finish_h_eq_chain {s : State} (h : s.BufferIsPending) :
    s.finish.h = chain s.h (s.pending ++ pad s.n.toNat s.len) (if s.n.toNat ≤ 55 then 1 else 2) := by
  obtain ⟨hh, -⟩ := State.emitAll_holds (State.holds_pending h) (pad s.n.toNat s.len)
  rw [State.finish_h, hh, List.length_append, State.pending_length, fill_add_pad_length,
    Nat.mul_div_cancel_left _ (by decide)]

/-- An update that leaves N and BUF leaves what the buffer holds. -/
theorem State.Holds.of_eq {s t : State} {pb : List Byte} (h : s.Holds pb) (hbuf : t.buf = s.buf) (hn : t.n = s.n) :
    t.Holds pb := by
  rwa [State.Holds, hbuf, hn]

/-- The padding ends at a block boundary, so nothing is left pending. -/
theorem State.finish_holds {s : State} {pb : List Byte} (h : s.Holds pb) : s.finish.Holds [] := by
  obtain ⟨-, hp⟩ := State.emitAll_holds h (pad s.n.toNat s.len)
  have hlen : (pb ++ pad s.n.toNat s.len).length = 64 * if s.n.toNat ≤ 55 then 1 else 2 := by
    rw [List.length_append, ← h.2, fill_add_pad_length]
  rw [hlen, Nat.mul_div_cancel_left _ (by decide), ← hlen, List.drop_length] at hp
  rw [State.finish_eq_latch]
  exact hp.of_eq (State.latch_buf _) (State.latch_n _)

end Sys2Proof.Machine
end

section
/-! The invariant of the machine: it holds at reset and every outcome of a sample keeps it (10_state.md R23, R24, R31, R32, R37,
R40), so it holds in every reachable state. -/

namespace Sys2Proof.Machine

/-- Without a fault the invariant is about the hashing state and the latch only. -/
theorem State.Inv.of_live {s : State} {pb : List Byte} (herr : s.err = false) (hcode : s.errCode = .noFault) (hp : s.Holds pb)
    (hfill : s.FillMatchesLen) (hshown : s.fin = true → s.digest = some (ser s.h)) : s.Inv where
  memory := hp.wf
  pendingOnly := hp.bufferIsPending
  fill := hfill
  code := by simp [State.ErrMatchesCode, herr, hcode]
  hidden := by simp [State.FaultHidesDigest, herr]
  misuse := by simp [State.MisuseIsFinalized, hcode]
  shown := fun _ => hshown

theorem State.Inv.errCode_of_live {s : State} (h : s.Inv) (herr : s.err = false) : s.errCode = .noFault := by
  have hcode := h.code
  simpa [State.ErrMatchesCode, herr] using hcode

theorem State.Inv.nextPins {s : State} (h : s.Inv) : s.nextPins.Inv := by
  unfold State.nextPins
  split <;> exact ⟨h.memory, h.pendingOnly, h.fill, h.code, h.hidden, h.misuse, h.shown⟩

theorem State.inv_rstTransition (s : State) : s.rstTransition.Inv :=
  .of_live (by simp) (by simp) (State.holds_nil (by simp) (by simp)) (by simp [State.FillMatchesLen]) (by simp)

/-- A fault leaves the hashing state and FIN, and hides the digest (60_exceptions.md R204). -/
theorem State.Inv.raiseFault {s : State} {c : ErrCode} (h : s.Inv) (can : s.CanFault c) : (s.raiseFault c).Inv where
  memory := h.memory
  pendingOnly := h.pendingOnly
  fill := h.fill
  code := by simp [State.ErrMatchesCode, can.cause]
  hidden := by simp [State.FaultHidesDigest]
  misuse := by simpa [State.MisuseIsFinalized] using can.misuse
  shown := by simp [State.FinalizedShowsDigest]

/-- PUSH keeps N = LEN mod 64: both go up by one (10_state.md R24). -/
theorem extractLsb'_len_succ (len : DWord) : (len + 1).extractLsb' 0 6 = len.extractLsb' 0 6 + 1 := by
  apply BitVec.eq_of_toNat_eq
  simp [BitVec.extractLsb'_toNat, BitVec.toNat_add]

theorem State.absorb_holds {s : State} {pb : List Byte} (h : s.Holds pb) (b : Byte) : ∃ pb', (s.absorb b).Holds pb' := by
  have hlen : ({ s with len := add64 s.len 1 } : State).Holds pb := h.of_eq rfl rfl
  obtain ⟨-, hp⟩ := State.emitAll_holds hlen [b]
  rw [State.emitAll_singleton] at hp
  exact ⟨_, hp⟩

theorem State.absorb_fillMatchesLen {s : State} (h : s.FillMatchesLen) (hfin : s.fin = false) (b : Byte) :
    (s.absorb b).FillMatchesLen := by
  have hn : (s.absorb b).n = s.n + 1 := by rw [State.absorb, State.emit_n]
  rw [State.FillMatchesLen, hn, State.absorb_len, extractLsb'_len_succ, h.1 hfin, State.absorb_fin, hfin]
  exact ⟨fun _ => rfl, nofun⟩

theorem State.loadImage_fillMatchesLen {v : BitVec 768} (hv : ctxValid v = true) (s : State) :
    (s.loadImage v).FillMatchesLen := by
  simp only [ctxValid, Bool.and_eq_true, beq_iff_eq] at hv
  simp [State.FillMatchesLen, hv.2]

/-- Every command that has its effect keeps the invariant. -/
theorem State.Inv.effect {s : State} {i : Instr} (h : s.Inv) (runs : s.Executes i) : (s.effect i).Inv := by
  have herr : (s.effect i).err = false := by rw [State.effect_err, runs.live]
  have hcode : (s.effect i).errCode = .noFault := by rw [State.effect_errCode, h.errCode_of_live runs.live]
  have hp : s.Holds s.pending := State.holds_pending h.pendingOnly
  cases i with
  | init =>
    rw [State.effect] at herr hcode ⊢
    exact .of_live herr hcode (State.holds_nil (by simp) (by simp)) (by simp [State.FillMatchesLen]) (by simp)
  | push b =>
    rw [State.effect] at herr hcode ⊢
    have hfin : s.fin = false := runs.active rfl
    obtain ⟨pb, hpb⟩ := State.absorb_holds hp b
    exact .of_live herr hcode hpb (State.absorb_fillMatchesLen h.fill hfin b) (by simp [hfin])
  | final =>
    rw [State.effect] at herr hcode ⊢
    have hpb : s.finish.Holds [] := State.finish_holds hp
    have hn : s.finish.n = 0 := BitVec.eq_of_toNat_eq hpb.2
    exact .of_live herr hcode (hpb.of_eq (by simp) (by simp)) (by simp [State.FillMatchesLen, hn]) (by simp)
  | finalr =>
    rw [State.effect] at herr hcode ⊢
    have hfin : s.fin = false := runs.active rfl
    exact .of_live herr hcode (State.holds_nil (by simp) (by simp)) (by simp [State.FillMatchesLen, hfin]) (by simp [hfin])
  | ctxload =>
    rw [State.effect] at herr hcode ⊢
    exact .of_live herr hcode (State.loadImage_holds _ s) (State.loadImage_fillMatchesLen (runs.valid rfl) s) (by simp)

/-- Settles O55, one lemma per outcome of a sample. -/
theorem invariantIsKeptByEveryStep : Obligations.InvariantIsKeptByEveryStep := by
  unfold Obligations.InvariantIsKeptByEveryStep
  intro s t h hstep
  obtain ⟨u, hsample, rfl⟩ := step_samples hstep
  cases hsample with
  | reset => exact (State.inv_rstTransition s).nextPins
  | unchanged => exact h.nextPins
  | faulted _ _ c can => exact (h.raiseFault can).nextPins
  | executed _ _ i _ runs => exact (h.effect runs).nextPins

/-- The reset state with the host's ports and samples in place of its own. -/
theorem inv_reset_driven (pins : Pins) (script : List Pins) :
    ({ State.reset with pins := pins, script := script } : State).Inv :=
  .of_live rfl rfl (State.holds_nil rfl rfl) ⟨fun _ => rfl, nofun⟩ nofun

/-- Settles O56. -/
theorem invariantHoldsAtReset : Obligations.InvariantHoldsAtReset := by
  unfold Obligations.InvariantHoldsAtReset
  exact inv_reset_driven _ _

theorem step_next (s : State) : ∃ t, step s = .next t := by
  unfold step samplePins
  split
  · exact ⟨_, rfl⟩
  · split
    · rcases accept_cases s.pins.cmd s with ⟨i, -, e⟩ | ⟨_, -, e⟩ <;> rw [e]
      · obtain ⟨u, hu⟩ := exec_next i s
        exact ⟨_, by rw [hu, afterNext]⟩
      · exact ⟨_, by rw [execReserved, afterNext]⟩
    · exact ⟨_, rfl⟩

/-- A property of states that every step keeps holds after any number of steps. -/
theorem run_induction {P : State → Prop} (hstep : ∀ s t, P s → step s = .next t → P t) (k : Nat) {s t : State} (h : P s)
    (hrun : Sys2Proof.core.run k s = .next t) : P t := by
  induction k generalizing s with
  | zero =>
    obtain rfl : s = t := Host.Outcome.next.inj hrun
    exact h
  | succ k ih =>
    obtain ⟨u, hu⟩ := step_next s
    rw [core_run_succ Sys2Proof.core k hu] at hrun
    exact ih (hstep s u h hu) hrun

/-- What the invariant gives for every state the host can bring about. -/
theorem Reachable.inv {t : State} (h : Reachable t) : t.Inv := by
  obtain ⟨pins, script, k, hrun⟩ := h
  exact run_induction invariantIsKeptByEveryStep k (inv_reset_driven pins script) hrun

/-- Settles O57: R24 is a part of the invariant. -/
theorem fillCountIsTheLengthModulo64 : Obligations.FillCountIsTheLengthModulo64 := by
  unfold Obligations.FillCountIsTheLengthModulo64
  intro t ht
  obtain ⟨hactive, hfinal⟩ := ht.inv.fill
  refine ⟨fun hfin => ?_, fun hfin => ?_⟩
  · rw [hactive hfin, BitVec.extractLsb'_toNat, Nat.shiftRight_zero]
  · rw [hfinal hfin]; rfl

end Sys2Proof.Machine
end

section
/-! Who writes what (10_state.md R22, R25, R29 to R33, R40): one case analysis over the outcomes of a command or of a sample for
each part of the state. -/

namespace Sys2Proof.Machine

/-- FINAL and FINALR latch ser(H) of the padded stream, the other commands leave DIGEST (10_state.md R33). -/
theorem State.effect_digest {s : State} {i : Instr} (runs : s.Executes i) :
    (s.effect i).digest = s.digest ∨
    ((i = .final ∨ i = .finalr) ∧ s.fin = false ∧
      (s.effect i).digest = some (ser (State.emitAll (pad s.n.toNat s.len) s).h)) := by
  cases i with
  | init => exact .inl (by simp [State.effect])
  | push b => exact .inl (by simp [State.effect])
  | final => exact .inr ⟨.inl rfl, runs.active rfl, by simp [State.effect, State.finish_h]⟩
  | finalr => exact .inr ⟨.inr rfl, runs.active rfl, by simp [State.effect, State.finish_h]⟩
  | ctxload => exact .inl (by simp [State.effect])

/-- Settles O29. -/
theorem digestLatchIsWrittenOnlyByFinalization : Obligations.DigestLatchIsWrittenOnlyByFinalization := by
  unfold Obligations.DigestLatchIsWrittenOnlyByFinalization
  intro s t i h
  cases exec_answers h with
  | ignored => exact .inl rfl
  | faulted c can => exact .inr (.inl ⟨can.live, by simp, by simp⟩)
  | executed runs =>
    rcases State.effect_digest runs with hkept | ⟨hi, hfin, hlatched⟩
    · exact .inl hkept
    · exact .inr (.inr ⟨hi, runs.live, hfin, hlatched⟩)

/-- PUSH writes H only when its byte goes to offset 63. -/
theorem State.absorb_h (b : Byte) (s : State) :
    (s.absorb b).h = if s.n = 63 then compress s.h (bufBlock (bufWrite s.buf 63 [b])) else s.h := by
  unfold State.absorb State.emit
  split <;> rename_i hn
  · simp [show s.n = 63 from hn]
  · simp

/-- H in an image is words 0..4 of the port. -/
theorem ctxHash_word (v : BitVec 768) (w : Fin 5) : (ctxHash v).word w = v.extractLsb' (32 * w.val) 32 := by
  match w with
  | 0 => rfl
  | 1 => rfl
  | 2 => rfl
  | 3 => rfl
  | 4 => rfl

/-- Settles O58: an outcome that is not one of the stated writers leaves H. -/
theorem hashStateHasOnlyTheStatedWriters : Obligations.HashStateHasOnlyTheStatedWriters := by
  unfold Obligations.HashStateHasOnlyTheStatedWriters
  intro s t hstep hne
  obtain ⟨u, hsample, rfl⟩ := step_samples hstep
  rw [State.nextPins_h] at hne ⊢
  cases hsample with
  | reset rst => exact .inl ⟨rst, by simp⟩
  | unchanged => exact absurd rfl hne
  | faulted _ _ c => exact absurd (State.raiseFault_h s c) hne
  | executed rst beat i dec runs =>
    refine .inr ⟨rst, beat, runs.live, i, dec, ?_⟩
    cases i with
    | init => simp [State.effect]
    | push b =>
      have hh := State.absorb_h b s
      have hn : s.n = 63 := by
        by_contra hn
        exact hne (hh.trans (if_neg hn))
      exact ⟨runs.active rfl, hn, hh.trans (if_pos hn)⟩
    | final => exact ⟨runs.active rfl, fun hpending => by simp [State.effect, State.finish_h_eq_chain hpending]⟩
    | finalr => exact ⟨runs.active rfl, by simp [State.effect]⟩
    | ctxload => exact fun w => by simp [State.effect, ctxHash_word]

/-- Settles O59. -/
theorem lengthCounterHasOnlyTheStatedWriters : Obligations.LengthCounterHasOnlyTheStatedWriters := by
  unfold Obligations.LengthCounterHasOnlyTheStatedWriters
  intro s t hstep
  obtain ⟨u, hsample, rfl⟩ := step_samples hstep
  rw [State.nextPins_len, State.nextPins_err]
  cases hsample with
  | reset rst => simp [rst]
  | unchanged rst quiet => simp [rst, quiet]
  | faulted rst => simp [rst]
  | executed rst beat i dec runs =>
    simp only [rst, beat, State.effect_err, runs.live, Bool.false_eq_true, Bool.true_eq_false, or_self, if_false]
    refine ⟨i, dec, ?_⟩
    cases i with
    | init => simp [State.effect]
    | push b => simp [State.effect]
    | final => simp [State.effect]
    | finalr => simp [State.effect]
    | ctxload => simp [State.effect, ctxLen_eq]

/-- FINAL sets FIN, INIT and CTXLOAD clear it, the other commands leave it (10_state.md R29). -/
theorem State.effect_fin_cases (s : State) (i : Instr) :
    (i = .final ∧ (s.effect i).fin = true) ∨ ((i = .init ∨ i = .ctxload) ∧ (s.effect i).fin = false) ∨
    (s.effect i).fin = s.fin := by
  cases i with
  | init => exact .inr (.inl ⟨.inl rfl, by simp [State.effect]⟩)
  | push b => exact .inr (.inr (by simp [State.effect]))
  | final => exact .inl ⟨rfl, by simp [State.effect]⟩
  | finalr => exact .inr (.inr (by simp [State.effect]))
  | ctxload => exact .inr (.inl ⟨.inr rfl, by simp [State.effect]⟩)

/-- Settles O60. -/
theorem flagsHaveOnlyTheStatedWriters : Obligations.FlagsHaveOnlyTheStatedWriters := by
  unfold Obligations.FlagsHaveOnlyTheStatedWriters
  intro s t hstep
  obtain ⟨u, hsample, rfl⟩ := step_samples hstep
  simp only [State.nextPins_fin, State.nextPins_err, State.nextPins_errCode, State.dvalid, State.nextPins_digest]
  cases hsample with
  | reset rst => simp [rst]
  | unchanged => simp +contextual
  | faulted rst beat c can => simp +contextual [can.live]
  | executed rst beat i dec runs =>
    have hfin := State.effect_fin_cases s i
    have hdigest := State.effect_digest runs
    rw [State.effect_err, State.effect_errCode, dec]
    refine ⟨fun h h' => ⟨rst, ?_⟩, fun h h' => ?_, fun h h' => ?_, fun h => absurd rfl h, fun h h' => ⟨rst, ?_⟩, fun h h' => ?_⟩
    · rcases hfin with ⟨rfl, -⟩ | ⟨-, hclear⟩ | hkept
      · rfl
      · simp [hclear] at h'
      · simp [hkept, h] at h'
    · rcases hfin with ⟨-, hset⟩ | ⟨rfl | rfl, -⟩ | hkept
      · simp [hset] at h'
      · exact .inr (.inl rfl)
      · exact .inr (.inr rfl)
      · simp [hkept, h] at h'
    · simp [h] at h'
    · rcases hdigest with hkept | ⟨rfl | rfl, -⟩
      · simp [hkept, h] at h'
      · exact .inl rfl
      · exact .inr rfl
    · rcases hdigest with hkept | ⟨-, -, hlatched⟩
      · simp [hkept, h] at h'
      · simp [hlatched] at h'

end Sys2Proof.Machine
end

section
/-! The internal sequencer (10_state.md R28, 41_buffer_commands.md R148, 42_finalization.md R164): how many phases an emitted
sequence takes, the padding phase by phase, and that every dispatched command comes back to IDLE. -/

namespace Sys2Proof.Machine

/-- The phases in which `m` bytes are emitted from fill count `n`: one each, and COMPRESS after every byte at offset 63. -/
def emitPhases (n : BitVec 6) (m : Nat) : Nat := m + (n.toNat + m) / 64

theorem fill_add (n : BitVec 6) (m : Nat) : (n + BitVec.ofNat 6 m).toNat = (n.toNat + m) % 64 := by
  simp [BitVec.toNat_add]

theorem emitPhases_add (n : BitVec 6) (a b : Nat) :
    emitPhases n (a + b) = emitPhases n a + emitPhases (n + BitVec.ofNat 6 a) b := by
  simp only [emitPhases, fill_add]
  omega

/-- Whether one byte completes a block (41_buffer_commands.md R143). -/
theorem fill_succ_div (n : BitVec 6) : (n.toNat + 1) / 64 = if n = 63 then 1 else 0 := by
  have hlt := n.isLt
  split
  · simp_all
  · rename_i hn
    have hne : n.toNat ≠ 63 := fun e => hn (BitVec.eq_of_toNat_eq e)
    omega

theorem Seq.micro_padMark {q : Seq} (h : q.phase = .padMark) :
    q.micro = Seq.put padMarker (afterPadByte q.st.n) { q with bits := lenBits q.st.len, k := 0 } := by
  simp only [Seq.micro, h]

theorem Seq.micro_padZero {q : Seq} (h : q.phase = .padZero) : q.micro = Seq.put 0 (afterPadByte q.st.n) q := by
  simp only [Seq.micro, h]

theorem Seq.micro_padLen {q : Seq} (h : q.phase = .padLen) :
    q.micro = Seq.put (byteOf64 q.bits q.k) (if q.k = 7 then .latch else .padLen) { q with k := q.k + 1 } := by
  simp only [Seq.micro, h]

/-- From `q` the sequencer emits the bytes `bs` and is then at `r`, still inside the same command. -/
structure Seq.Emits (bs : List Byte) (q r : Seq) : Prop where
  run : Seq.run (emitPhases q.st.n bs.length) q = r
  st : r.st = State.emitAll bs q.st
  cmd : r.cmd = q.cmd
  compressions : r.compressions = q.compressions + (q.st.n.toNat + bs.length) / 64

theorem Seq.Emits.nil (q : Seq) : Seq.Emits [] q q where
  run := by simp [emitPhases, Nat.div_eq_of_lt q.st.n.isLt, Seq.run]
  st := by rw [State.emitAll]
  cmd := rfl
  compressions := by simp [Nat.div_eq_of_lt q.st.n.isLt]

theorem Seq.Emits.trans {bs cs : List Byte} {q r t : Seq} (h : Seq.Emits bs q r) (h' : Seq.Emits cs r t) :
    Seq.Emits (bs ++ cs) q t := by
  have hn : r.st.n = q.st.n + BitVec.ofNat 6 bs.length := by rw [h.st, State.emitAll_n]
  refine ⟨?_, ?_, h'.cmd.trans h.cmd, ?_⟩
  · rw [List.length_append, emitPhases_add, Seq.run_add, h.run, ← hn, h'.run]
  · rw [h'.st, h.st, State.emitAll_append]
  · rw [h'.compressions, h.compressions, hn, fill_add, List.length_append]
    omega

/-- A phase that writes a byte emits it, with the COMPRESS phase it may need, and goes on as it said. -/
theorem Seq.emits_of_put {q q' : Seq} {b : Byte} {p : Phase} (hmicro : q.micro = Seq.put b p q') (hst : q'.st = q.st)
    (hcmd : q'.cmd = q.cmd) (hcount : q'.compressions = q.compressions) :
    ∃ r, Seq.Emits [b] q r ∧ r.phase = p ∧ r.bits = q'.bits ∧ r.k = q'.k := by
  obtain ⟨back, hrun⟩ := Seq.run_put b p q'
  refine ⟨{ q' with st := q'.st.emit b, phase := p, back := back,
                    compressions := q'.compressions + if q'.st.n = 63 then 1 else 0 }, ⟨?_, ?_, hcmd, ?_⟩, rfl, rfl, rfl⟩
  · rw [List.length_singleton, emitPhases, fill_succ_div, Seq.run_add, ← hst, ← hrun, ← hmicro]
    rfl
  · rw [State.emitAll_singleton, hst]
  · rw [List.length_singleton, fill_succ_div, hcount, hst]

/-- PAD_ZERO from the fill count the last padding byte left: zero bytes until N = 56, then PAD_LEN. -/
theorem Seq.emits_padZero (m : Nat) {q : Seq} (hm : (56 - q.st.n).toNat = m) (hphase : q.phase = afterPadByte (q.st.n - 1)) :
    ∃ r, Seq.Emits (List.replicate m 0) q r ∧ r.phase = .padLen ∧ r.bits = q.bits ∧ r.k = q.k := by
  induction m generalizing q with
  | zero =>
    have hn : q.st.n - 1 = 55 := by bv_omega
    exact ⟨q, .nil q, by rw [hphase, hn]; rfl, rfl, rfl⟩
  | succ m ih =>
    have hn : q.st.n - 1 ≠ 55 := by bv_omega
    have hzero : q.phase = .padZero := by rw [hphase, afterPadByte, if_neg hn]
    obtain ⟨r, hr, hphase', hbits, hk⟩ := Seq.emits_of_put (Seq.micro_padZero hzero) rfl rfl rfl
    have hn' : r.st.n = q.st.n + 1 := by rw [hr.st, State.emitAll_singleton, State.emit_n]
    obtain ⟨t, ht, hlen, hbits', hk'⟩ := ih (q := r) (by rw [hn']; bv_omega) (by rw [hphase', hn', BitVec.add_sub_cancel])
    exact ⟨t, hr.trans ht, hlen, hbits'.trans hbits, hk'.trans hk⟩

/-- PAD_LEN from length byte k on: the bytes that are left of LENBITS, then LATCH. -/
theorem Seq.emits_padLen (m : Nat) {q : Seq} (hm : q.k + m = 8) (hphase : q.phase = if q.k = 8 then .latch else .padLen) :
    ∃ r, Seq.Emits ((List.range' q.k m).map (byteOf64 q.bits)) q r ∧ r.phase = .latch := by
  induction m generalizing q with
  | zero => exact ⟨q, .nil q, by rw [hphase, if_pos (by omega)]⟩
  | succ m ih =>
    have hlen : q.phase = .padLen := by rw [hphase, if_neg (by omega)]
    obtain ⟨r, hr, hphase', hbits, hk⟩ := Seq.emits_of_put (Seq.micro_padLen hlen) rfl rfl rfl
    replace hk : r.k = q.k + 1 := hk
    obtain ⟨t, ht, hlatch⟩ := ih (q := r) (by rw [hk]; omega) (by simp [hphase', hk])
    rw [hbits, hk] at ht
    exact ⟨t, hr.trans ht, hlatch⟩

/-- PAD_MARK, PAD_ZERO and PAD_LEN emit pad(N, LEN) and end in LATCH. -/
theorem Seq.emits_pad {q : Seq} (hphase : q.phase = .padMark) :
    ∃ r, Seq.Emits (pad q.st.n.toNat q.st.len) q r ∧ r.phase = .latch := by
  obtain ⟨r, hmark, hphase', hbits, hk⟩ := Seq.emits_of_put (Seq.micro_padMark hphase) rfl rfl rfl
  have hn : r.st.n = q.st.n + 1 := by rw [hmark.st, State.emitAll_singleton, State.emit_n]
  have hcount : (56 - r.st.n).toNat = padZeroCount q.st.n.toNat := by
    rw [hn, fill_to_56, fill_succ, padZeroCount]
    omega
  obtain ⟨u, hzero, hpadLen, hbits', hk'⟩ := Seq.emits_padZero _ hcount (by rw [hphase', hn, BitVec.add_sub_cancel])
  have hstart : u.k = 0 := hk'.trans hk
  obtain ⟨t, hlen, hlatch⟩ := Seq.emits_padLen 8 (q := u) (by omega) (by rw [hpadLen, if_neg (by omega)])
  rw [hstart, hbits'.trans hbits] at hlen
  exact ⟨t, hmark.trans (hzero.trans hlen), hlatch⟩

/-- From `q` the sequencer comes back to IDLE within 80 phases, in the state `t`, after `c` compressions. -/
def Seq.Returns (q : Seq) (t : State) (c : Nat) : Prop :=
  ∃ k, k ≤ 80 ∧ (Seq.run k q).phase = .idle ∧ (Seq.run k q).st = t ∧ (Seq.run k q).compressions = c

/-- A dispatched command in its first phase. -/
def Seq.entered (i : Instr) (s : State) : Seq := { Seq.atRest i s with phase := firstPhase i }

theorem Seq.atRest_returns (i : Instr) (s : State) : (Seq.atRest i s).Returns s 0 :=
  ⟨0, by decide, rfl, rfl, rfl⟩

theorem Seq.init_returns (s : State) : (Seq.entered .init s).Returns (s.reinit.setFin false) 0 :=
  ⟨1, by decide, rfl, rfl, rfl⟩

theorem Seq.ctxload_returns (s : State) : (Seq.entered .ctxload s).Returns (s.loadContext s.pins.ctxIn) 0 :=
  ⟨1, by decide, rfl, rfl, rfl⟩

theorem Seq.push_returns (b : Byte) (s : State) :
    (Seq.entered (.push b) s).Returns (s.absorb b) (if s.n = 63 then 1 else 0) := by
  obtain ⟨back, hput⟩ := Seq.run_put b .idle (Seq.entered (.push b) { s with len := add64 s.len 1 })
  have hrun : Seq.run (1 + if s.n = 63 then 1 else 0) (Seq.entered (.push b) s) = _ := (Seq.run_add _ _ _).trans hput
  refine ⟨1 + if s.n = 63 then 1 else 0, by split <;> decide, ?_⟩
  rw [hrun]
  exact ⟨rfl, rfl, Nat.zero_add _⟩

/-- The padding of FINAL and FINALR up to LATCH, with room for the two phases that follow it. -/
theorem Seq.padding_runs {i : Instr} (hi : firstPhase i = .padMark) (s : State) :
    ∃ k r, k ≤ 78 ∧ Seq.run k (Seq.entered i s) = r ∧ r.phase = .latch ∧ r.cmd = i ∧ r.st.latch = s.finish ∧
      r.compressions = if s.n.toNat ≤ 55 then 1 else 2 := by
  obtain ⟨r, hr, hlatch⟩ : ∃ r, Seq.Emits (pad s.n.toNat s.len) (Seq.entered i s) r ∧ r.phase = .latch :=
    Seq.emits_pad (q := Seq.entered i s) hi
  have hblocks : (s.n.toNat + (pad s.n.toNat s.len).length) / 64 = if s.n.toNat ≤ 55 then 1 else 2 := by
    rw [fill_add_pad_length, Nat.mul_div_cancel_left _ (by decide)]
  refine ⟨emitPhases s.n (pad s.n.toNat s.len).length, r, ?_, hr.run, hlatch, hr.cmd, ?_, ?_⟩
  · have hz : padZeroCount s.n.toNat < 64 := Nat.mod_lt _ (by decide)
    rw [emitPhases, hblocks, pad_length]
    split <;> omega
  · rw [hr.st, State.finish_eq_latch]
    rfl
  · rw [hr.compressions, ← hblocks]
    exact Nat.zero_add _

theorem Seq.final_returns (s : State) :
    (Seq.entered .final s).Returns (s.finish.setFin true) (if s.n.toNat ≤ 55 then 1 else 2) := by
  obtain ⟨k, r, hk, hrun, hphase, hcmd, hst, hcount⟩ := Seq.padding_runs (i := .final) rfl s
  have hlast : Seq.run 1 r = { r with st := s.finish.setFin true, phase := .idle } := by
    simp [Seq.run, Seq.micro, hphase, hcmd, hst]
  refine ⟨k + 1, by omega, ?_⟩
  rw [Seq.run_add, hrun, hlast]
  exact ⟨rfl, rfl, hcount⟩

theorem Seq.finalr_returns (s : State) :
    (Seq.entered .finalr s).Returns s.finish.reinit (if s.n.toNat ≤ 55 then 1 else 2) := by
  obtain ⟨k, r, hk, hrun, hphase, hcmd, hst, hcount⟩ := Seq.padding_runs (i := .finalr) rfl s
  have hlast : Seq.run 2 r = { r with st := s.finish.reinit, phase := .idle } := by
    simp [Seq.run, Seq.micro, hphase, hcmd, hst]
  refine ⟨k + 2, by omega, ?_⟩
  rw [Seq.run_add, hrun, hlast]
  exact ⟨rfl, rfl, hcount⟩

/-- Every dispatched command comes back to IDLE in the state the command leaves. -/
theorem Seq.entered_returns {i : Instr} {s : State} (herr : s.err = false) (hfin : needsActive i = true → s.fin = false) :
    ∃ t c, exec i s = .next t ∧ (Seq.entered i s).Returns t c := by
  cases i with
  | init => exact ⟨_, _, by rw [exec, execInit, whenLive_ok herr], Seq.init_returns s⟩
  | push b => exact ⟨_, _, by rw [exec, execPush, whenActive_ok herr (hfin rfl)], Seq.push_returns b s⟩
  | final => exact ⟨_, _, by rw [exec, execFinal, whenActive_ok herr (hfin rfl)], Seq.final_returns s⟩
  | finalr => exact ⟨_, _, by rw [exec, execFinalr, whenActive_ok herr (hfin rfl)], Seq.finalr_returns s⟩
  | ctxload => exact ⟨_, _, by rw [exec, execCtxload, whenLive_ok herr], Seq.ctxload_returns s⟩

/-- While ERR = 1 every command is ignored (60_exceptions.md R207). -/
theorem exec_of_err {s : State} (herr : s.err = true) (i : Instr) : exec i s = .next s := by
  cases i with
  | init => rw [exec, execInit, whenLive_err herr]
  | push b => rw [exec, execPush, whenActive_err herr]
  | final => rw [exec, execFinal, whenActive_err herr]
  | finalr => rw [exec, execFinalr, whenActive_err herr]
  | ctxload => rw [exec, execCtxload, whenLive_err herr]

/-- PUSH, FINAL and FINALR while FIN = 1 (60_exceptions.md R202). -/
theorem exec_of_misuse {i : Instr} {s : State} (herr : s.err = false) (hfin : s.fin = true) (hi : needsActive i = true) :
    exec i s = .next (s.raiseFault .useAfterFinal) := by
  cases i with
  | init => cases hi
  | push b => rw [exec, execPush, whenActive_fin herr hfin]
  | final => rw [exec, execFinal, whenActive_fin herr hfin]
  | finalr => rw [exec, execFinalr, whenActive_fin herr hfin]
  | ctxload => cases hi

/-- Dispatch (41_buffer_commands.md R140) and what it starts agree with the command's meaning. -/
theorem Seq.start_returns (i : Instr) (s : State) : ∃ t c, exec i s = .next t ∧ (Seq.start i s).Returns t c := by
  unfold Seq.start
  split
  · rename_i herr
    exact ⟨_, _, exec_of_err herr i, Seq.atRest_returns i s⟩
  · rename_i herr
    rw [Bool.not_eq_true] at herr
    split
    · rename_i hmisuse
      rw [Bool.and_eq_true] at hmisuse
      exact ⟨_, _, exec_of_misuse herr hmisuse.1 hmisuse.2, Seq.atRest_returns i _⟩
    · rename_i hactive
      exact Seq.entered_returns herr fun hi => by simpa [hi] using hactive

/-- Settles O30. -/
theorem sequencerPhasesRefineEveryCommand : Obligations.SequencerPhasesRefineEveryCommand := by
  unfold Obligations.SequencerPhasesRefineEveryCommand
  intro i s
  obtain ⟨t, c, hexec, k, hk, hidle, rfl, -⟩ := Seq.start_returns i s
  exact ⟨k, hk, hidle, hexec⟩

end Sys2Proof.Machine
end

section
/-! Command words as the rows of the opcode map have them (30_encoding.md R84 to R91, R96): decoding and encoding are inverse to
each other, a row matches exactly the words of its commands, and the verdicts on reserved words by the numbers of the two fields. -/

namespace Sys2Proof

/-- Two words with the same fields are the same word (30_encoding.md R82). -/
theorem word_eq_of_fields {v w : CmdWord} (hop : opField v = opField w) (harg : argField v = argField w) : v = w := by
  rw [word_eq_fields v, word_eq_fields w, hop, harg]

theorem encode_push_toNat (b : Byte) : (encode (.push b)).toNat = 0x0200 + b.toNat := by
  have hb := b.isLt
  have hsum : (encode (.push b)).toNat = (0x0200 + b.toNat % 2 ^ 16) % 2 ^ 16 := by
    rw [encode, BitVec.toNat_add, BitVec.toNat_setWidth]; rfl
  omega

theorem opField_encode_push (b : Byte) : opField (encode (.push b)) = 0x02 := by
  have hb := b.isLt
  have hop : (opField (encode (.push b))).toNat = 2 := by rw [opField_toNat, encode_push_toNat]; omega
  exact BitVec.eq_of_toNat_eq hop

theorem argField_encode_push (b : Byte) : argField (encode (.push b)) = b := by
  have hb := b.isLt
  apply BitVec.eq_of_toNat_eq
  rw [argField_toNat, encode_push_toNat]
  omega

theorem decode_encode (i : Instr) : decode (encode i) = .command i := by
  cases i with
  | init => decide
  | push b => rw [decode, opField_encode_push, argField_encode_push]; rfl
  | final => decide
  | finalr => decide
  | ctxload => decide

/-- The row of a decoded command fixes both fields of its word. -/
theorem eq_encode_of_decode {w : CmdWord} {i : Instr} (h : decode w = .command i) : w = encode i := by
  have hfields := decode_fields w
  rw [h] at hfields
  cases i with
  | init => exact word_eq_of_fields hfields.1 hfields.2
  | push b =>
    exact word_eq_of_fields (hfields.1.trans (opField_encode_push b).symm) (hfields.2.trans (argField_encode_push b).symm)
  | final => exact word_eq_of_fields hfields.1 hfields.2
  | finalr => exact word_eq_of_fields hfields.1 hfields.2
  | ctxload => exact word_eq_of_fields hfields.1 hfields.2

theorem decode_eq_command_iff {w : CmdWord} {i : Instr} : decode w = .command i ↔ w = encode i :=
  ⟨eq_encode_of_decode, fun h => h ▸ decode_encode i⟩

theorem encode_injective {i j : Instr} (h : encode i = encode j) : i = j := by
  have hcommand : Verdict.command i = .command j := by rw [← decode_encode i, h, decode_encode]
  exact Verdict.command.inj hcommand

/-- A word that is the word of no command is reserved. -/
theorem decode_reserved_of_ne_encode {w : CmdWord} (h : ∀ i, w ≠ encode i) : ∃ r, decode w = .reserved r := by
  cases hd : decode w with
  | command i => exact absurd (eq_encode_of_decode hd) (h i)
  | reserved r => exact ⟨r, rfl⟩

/-- Settles O1. -/
theorem decodeAndEncodeAgree : Obligations.DecodeAndEncodeAgree := by
  unfold Obligations.DecodeAndEncodeAgree
  exact ⟨fun i _ => decode_encode i, fun _ _ => eq_encode_of_decode, fun _ => decode_reserved_of_ne_encode,
    rfl, encode_push_toNat, rfl, rfl, rfl⟩

/-- Settles O2. -/
theorem sampleWordsDecodeAsTheTableSays : Obligations.SampleWordsDecodeAsTheTableSays := by
  unfold Obligations.SampleWordsDecodeAsTheTableSays
  decide

theorem encodedWord (i : Instr) : Laws.EncodedWord.Statement i := by
  cases i with
  | init => exact Laws.EncodedWord.init
  | push b => exact Laws.EncodedWord.push b
  | final => exact Laws.EncodedWord.final
  | finalr => exact Laws.EncodedWord.finalr
  | ctxload => exact Laws.EncodedWord.ctxload

/-- A row with the full mask matches its own word only. -/
theorem eq_of_and_full_mask {w p : CmdWord} (h : w &&& 0xFFFF = p) : w = p := by
  rw [← h, show (0xFFFF : CmdWord) = BitVec.allOnes 16 from rfl, BitVec.and_allOnes]

/-- PUSH's row matches by the opcode field only. -/
theorem eq_encode_push_of_and_mask {w : CmdWord} (h : w &&& 0xFF00 = 0x0200) : w = encode (.push (argField w)) := by
  have hop : opField w = 0x02 := by
    calc opField w = opField w &&& BitVec.allOnes 8 := BitVec.and_allOnes.symm
      _ = opField (w &&& 0xFF00) := (BitVec.extractLsb'_and (x := w) (y := 0xFF00)).symm
      _ = 0x02 := by rw [h]; rfl
  exact word_eq_of_fields (hop.trans (opField_encode_push _).symm) (argField_encode_push _).symm

/-- A row matches exactly the words of the commands that belong to it (30_encoding.md R84). -/
theorem matchesWord_iff {r : OpRow} (hr : r ∈ opRows) (w : CmdWord) :
    r.matchesWord w = true ↔ ∃ i : Instr, i.row = r ∧ w = encode i := by
  constructor
  · intro h
    replace h : w &&& r.mask = r.pattern := by simpa only [OpRow.matchesWord, beq_iff_eq] using h
    simp only [opRows, List.mem_cons, List.not_mem_nil, or_false] at hr
    rcases hr with rfl | rfl | rfl | rfl | rfl
    · exact ⟨.init, rfl, eq_of_and_full_mask h⟩
    · exact ⟨.push (argField w), rfl, eq_encode_push_of_and_mask h⟩
    · exact ⟨.final, rfl, eq_of_and_full_mask h⟩
    · exact ⟨.finalr, rfl, eq_of_and_full_mask h⟩
    · exact ⟨.ctxload, rfl, eq_of_and_full_mask h⟩
  · rintro ⟨i, rfl, rfl⟩
    obtain ⟨-, -, hmatch, -⟩ := encodedWord i
    exact hmatch

theorem legalWord_iff (w : CmdWord) : legalWord w = true ↔ ∃ i, w = encode i := by
  constructor
  · intro h
    obtain ⟨r, hr, hmatch⟩ := List.any_eq_true.1 h
    obtain ⟨i, -, hw⟩ := (matchesWord_iff hr w).1 hmatch
    exact ⟨i, hw⟩
  · rintro ⟨i, rfl⟩
    obtain ⟨-, -, -, hlegal⟩ := encodedWord i
    exact hlegal

theorem opField_eq_iff {w : CmdWord} {op : Byte} : opField w = op ↔ w.toNat / 256 = op.toNat := by
  rw [← BitVec.toNat_inj, opField_toNat]

theorem argField_eq_zero_iff {w : CmdWord} : argField w = 0#8 ↔ w.toNat % 256 = 0 := by
  rw [← BitVec.toNat_inj, argField_toNat]; rfl

/-- The verdicts by the numbers in the two fields: a command's operand is 0 where it must be (30_encoding.md R84, R90, R91). -/
theorem decode_numbers (w : CmdWord) :
    match decode w with
    | .command _ => w.toNat / 256 = 2 ∨ (w.toNat / 256 ∈ [1, 3, 4, 5] ∧ w.toNat % 256 = 0)
    | .reserved .operand => w.toNat / 256 ∈ [1, 3, 4, 5] ∧ w.toNat % 256 ≠ 0
    | .reserved .opcode => w.toNat / 256 = 0 ∨ 6 ≤ w.toNat / 256 := by
  have h := decode_fields w
  cases hd : decode w with
  | command i => rw [hd] at h; cases i <;> simp_all [opField_eq_iff, argField_eq_zero_iff]
  | reserved r =>
    rw [hd] at h
    cases r with
    | operand => simpa [opField_eq_iff, argField_eq_zero_iff] using h
    | opcode => simp [opField_eq_iff] at h ⊢; omega

theorem decode_eq_reserved_opcode_iff (w : CmdWord) :
    decode w = .reserved .opcode ↔ w.toNat / 256 = 0 ∨ 6 ≤ w.toNat / 256 := by
  have h := decode_numbers w
  cases hd : decode w with
  | command i => rw [hd] at h; simp at h ⊢; omega
  | reserved r =>
    rw [hd] at h
    cases r with
    | operand => simp at h ⊢; omega
    | opcode => exact ⟨fun _ => h, fun _ => rfl⟩

theorem decode_eq_reserved_operand_iff (w : CmdWord) :
    decode w = .reserved .operand ↔ w.toNat / 256 ∈ [1, 3, 4, 5] ∧ w.toNat % 256 ≠ 0 := by
  have h := decode_numbers w
  cases hd : decode w with
  | command i => rw [hd] at h; simp at h ⊢; omega
  | reserved r =>
    rw [hd] at h
    cases r with
    | operand => exact ⟨fun _ => h, fun _ => rfl⟩
    | opcode => simp at h ⊢; omega

/-- Settles O3: a row matches the words of its own commands and no others. -/
theorem reservedWordsAreThoseThatMatchNoRow : Obligations.ReservedWordsAreThoseThatMatchNoRow := by
  unfold Obligations.ReservedWordsAreThoseThatMatchNoRow
  refine ⟨fun w => ?_, fun w r₁ hr₁ r₂ hr₂ h₁ h₂ => ?_, decode_eq_reserved_opcode_iff, decode_eq_reserved_operand_iff⟩
  · simp only [decode_eq_command_iff, legalWord_iff]
  · obtain ⟨i, hi, hwi⟩ := (matchesWord_iff hr₁ w).1 h₁
    obtain ⟨j, hj, hwj⟩ := (matchesWord_iff hr₂ w).1 h₂
    rw [← hi, ← hj, encode_injective (hwi.symm.trans hwj)]

end Sys2Proof
end

section
/-! What each command does when it passes its checks, and the step by the sample it takes (30_encoding.md R81,
41_buffer_commands.md R140): reset, a command word, a reserved word, or nothing. -/

namespace Sys2Proof.Machine

theorem exec_init {s : State} (herr : s.err = false) : exec .init s = .next (s.reinit.setFin false) := by
  rw [exec, execInit, whenLive_ok herr]

theorem exec_push {s : State} (herr : s.err = false) (hfin : s.fin = false) (b : Byte) :
    exec (.push b) s = .next (s.absorb b) := by
  rw [exec, execPush, whenActive_ok herr hfin]

theorem exec_final {s : State} (herr : s.err = false) (hfin : s.fin = false) :
    exec .final s = .next (s.finish.setFin true) := by
  rw [exec, execFinal, whenActive_ok herr hfin]

theorem exec_finalr {s : State} (herr : s.err = false) (hfin : s.fin = false) : exec .finalr s = .next s.finish.reinit := by
  rw [exec, execFinalr, whenActive_ok herr hfin]

theorem exec_ctxload_valid {s : State} (herr : s.err = false) (hv : ctxValid s.pins.ctxIn = true) :
    exec .ctxload s = .next (s.loadImage s.pins.ctxIn) := by
  rw [exec, execCtxload, whenLive_ok herr, State.loadContext, if_pos hv]

theorem exec_ctxload_invalid {s : State} (herr : s.err = false) (hv : ctxValid s.pins.ctxIn = false) :
    exec .ctxload s = .next (s.raiseFault .badContext) := by
  rw [exec, execCtxload, whenLive_ok herr, State.loadContext, hv, if_neg Bool.false_ne_true]

theorem samplePins_beat {s : State} (hrst : s.pins.rst = false) (hbeat : s.pins.cmdValid = true) :
    samplePins s = accept s.pins.cmd s := by
  simp [samplePins, hrst, hbeat]

theorem samplePins_quiet {s : State} (hrst : s.pins.rst = false) (hquiet : s.pins.cmdValid = false) :
    samplePins s = .next s := by
  simp [samplePins, hrst, hquiet]

theorem accept_of_command {w : CmdWord} {i : Instr} (h : decode w = .command i) (s : State) : accept w s = exec i s := by
  rw [accept, h]

theorem accept_of_reserved {w : CmdWord} {r : Reserved} (h : decode w = .reserved r) (s : State) :
    accept w s = execReserved s := by
  rw [accept, h]

/-- A beat runs the decoded command, and then the host's next sample stands on the ports. -/
theorem step_of_command {s : State} {i : Instr} (hrst : s.pins.rst = false) (hbeat : s.pins.cmdValid = true)
    (h : decode s.pins.cmd = .command i) : step s = afterNext (exec i s) State.nextPins := by
  rw [step, samplePins_beat hrst hbeat, accept_of_command h]

/-- A step that accepts a command's beat. -/
theorem step_of_beat {s t : State} {i : Instr} {v : BitVec 768} (hpins : s.pins = beat i v) (hexec : exec i s = .next t) :
    step s = .next t.nextPins := by
  have hdec : decode s.pins.cmd = .command i := by rw [hpins]; exact decode_encode i
  rw [step_of_command (by rw [hpins]; rfl) (by rw [hpins]; rfl) hdec, hexec, afterNext]

/-- A step that accepts a reserved word while ERR = 0 (60_exceptions.md R203). -/
theorem step_of_reserved {s : State} {r : Reserved} (hrst : s.pins.rst = false) (hbeat : s.pins.cmdValid = true)
    (hdec : decode s.pins.cmd = .reserved r) (herr : s.err = false) :
    step s = .next (s.raiseFault .illegalCommand).nextPins := by
  rw [step, samplePins_beat hrst hbeat, accept_of_reserved hdec, execReserved, whenLive_ok herr, afterNext]

theorem step_rst {s : State} (hrst : s.pins.rst = true) : step s = .next s.rstTransition.nextPins := by
  rw [step, samplePins_rst hrst, afterNext]

theorem nextPins_of_cons {s : State} {p : Pins} {ps : List Pins} (h : s.script = p :: ps) :
    s.nextPins = { s with pins := p, script := ps } := by
  rw [State.nextPins, h]

theorem nextPins_of_nil {s : State} (h : s.script = []) :
    s.nextPins = { s with pins := { s.pins with rst := false, cmdValid := false } } := by
  rw [State.nextPins, h]

/-- All 16 bits of a table word are the word itself. -/
theorem tableWord_toNat (w : CmdWord) : tableWord 16 w.toNat = w := by
  rw [tableWord, Nat.mod_eq_of_lt w.isLt, BitVec.ofNat_toNat, BitVec.setWidth_eq]

/-- The command whose word stands for the next step is the one the decoder reads from the port. -/
theorem decode_withFetchWord (s : State) (i : Instr) :
    decode (s.withFetchWord 16 (encode i).toNat).pins.cmd = .command i := by
  rw [State.withFetchWord_pins, tableWord_toNat, decode_encode]

/-- Settles O4. -/
theorem stepRunsTheDecodedCommand : Obligations.StepRunsTheDecodedCommand := by
  unfold Obligations.StepRunsTheDecodedCommand
  exact ⟨fun _ _ _ hrst hbeat hdec => step_of_command hrst hbeat hdec,
    fun s i _ => step_of_command (by simp) (by simp) (decode_withFetchWord s i),
    fun _ _ _ => nextPins_of_cons, fun _ => nextPins_of_nil⟩

/-- No output port reads the input ports, so the host's next sample changes none of them. -/
theorem State.outPorts_nextPins (s : State) : s.nextPins.outPorts = s.outPorts := by
  have hctx : s.nextPins.ctxOut = s.ctxOut := State.ctxOut_congr (by simp) (by simp) (by simp) (by simp)
  simp [State.outPorts, State.cmdReady, State.status, State.dvalid, State.digestPort, State.digestBytes, hctx]

/-- Settles O5. -/
theorem nothingChangesBetweenBeats : Obligations.NothingChangesBetweenBeats := by
  unfold Obligations.NothingChangesBetweenBeats
  intro s hrst hquiet
  refine ⟨?_, s.outPorts_nextPins⟩
  rw [step, samplePins_quiet hrst hquiet, afterNext]

end Sys2Proof.Machine
end

section
/-! The digest port (30_encoding.md R98, 42_finalization.md R167, 20_memory.md R53). -/

namespace Sys2Proof.Machine

/-- The four bytes of a word on a port are the word, so bytes and words are packed alike (20_memory.md R53). -/
theorem packBytes_bytes32_append (w : Word) (bs : List Byte) :
    packBytes (bytes32 w ++ bs) = w.toNat + 2 ^ 32 * packBytes bs := by
  have hw := w.isLt
  simp only [bytes32, byteOf, List.cons_append, List.nil_append, packBytes, BitVec.extractLsb'_toNat, Nat.shiftRight_eq_div_pow]
  omega

theorem packBytes_ser (h : HashState) : packBytes (ser h).toList = packWords h.words := by
  have hbytes : (ser h).toList = bytes32 h.h0 ++ (bytes32 h.h1 ++ (bytes32 h.h2 ++ (bytes32 h.h3 ++ (bytes32 h.h4 ++ [])))) := rfl
  rw [hbytes]
  simp only [packBytes_bytes32_append, HashState.words, packWords, packBytes]

theorem words_getD (h : HashState) (i : Fin 5) : h.words.getD i.val 0 = h.word i := by
  match i with
  | 0 => rfl
  | 1 => rfl
  | 2 => rfl
  | 3 => rfl
  | 4 => rfl

theorem hashToPort_word (h : HashState) (i : Fin 5) : (hashToPort h).extractLsb' (32 * i.val) 32 = h.word i :=
  (portWord_packWords 160 h.words (Nat.le_refl 160) i.val).trans (words_getD h i)

theorem hashToPort_toNat (h : HashState) :
    (hashToPort h).toNat =
      h.h0.toNat + 2 ^ 32 * h.h1.toNat + 2 ^ 64 * h.h2.toNat + 2 ^ 96 * h.h3.toNat + 2 ^ 128 * h.h4.toNat := by
  have hlt : packWords h.words < 2 ^ 160 := packWords_lt h.words
  rw [hashToPort, BitVec.toNat_ofNat, Nat.mod_eq_of_lt hlt]
  simp only [HashState.words, packWords]
  ring

theorem State.dvalid_of_digest {s : State} {d : Digest} (h : s.digest = some d) : s.dvalid = true := by
  rw [State.dvalid, h, Option.isSome_some]

theorem State.digestBytes_of_digest {s : State} {d : Digest} (h : s.digest = some d) : s.digestBytes = d := by
  rw [State.digestBytes, h, Option.getD_some]

/-- A latched digest is on its port as the chaining value it was latched from would be on a port. -/
theorem digestPort_of_ser {s : State} {h : HashState} (hd : s.digest = some (ser h)) : s.digestPort = hashToPort h := by
  rw [State.digestPort, State.digestBytes_of_digest hd, packBytes_ser, hashToPort]

/-- Settles O53: the port is the chaining value word by word, and its bytes are fields of the words. -/
theorem digestPortShowsTheChainingValue : Obligations.DigestPortShowsTheChainingValue := by
  unfold Obligations.DigestPortShowsTheChainingValue
  intro s h hd
  rw [digestPort_of_ser hd]
  refine ⟨hashToPort_word h, fun i k => ?_, hashToPort_toNat h⟩
  have hk := k.isLt
  rw [← hashToPort_word h i, extractLsb'_extractLsb' _ _ _ _ _ (by omega), Nat.mul_add, ← Nat.mul_assoc]

end Sys2Proof.Machine
end

section
/-! The status port (30_encoding.md R97): its fields, its values under the invariant, and for each value a run that shows it. -/

namespace Sys2Proof.Machine

/-- The byte `status` shows for given flags. -/
def statusByte (code : ErrCode) (dvalid err fin : Bool) : BitVec 8 :=
  (0 : BitVec 2) ++ code.code ++ (0 : BitVec 1) ++ flagBit dvalid ++ flagBit err ++ flagBit fin

theorem State.status_eq (s : State) : s.status = statusByte s.errCode s.dvalid s.err s.fin := rfl

theorem statusByte_fields (code : ErrCode) (dvalid err fin : Bool) :
    (statusByte code dvalid err fin).getLsbD 0 = fin ∧ (statusByte code dvalid err fin).getLsbD 1 = err ∧
    (statusByte code dvalid err fin).getLsbD 2 = dvalid ∧ (statusByte code dvalid err fin).getLsbD 3 = false ∧
    (statusByte code dvalid err fin).extractLsb' 4 2 = code.code ∧ (statusByte code dvalid err fin).extractLsb' 6 2 = 0 := by
  revert dvalid err fin
  cases code <;> decide

/-- The values of `status` a host can see (30_encoding.md R97). -/
def visibleStatus : List (BitVec 8) := [0x00, 0x04, 0x05, 0x12, 0x13, 0x23, 0x32, 0x33]

theorem State.Inv.dvalid_of_finalized {s : State} (h : s.Inv) (herr : s.err = false) (hfin : s.fin = true) :
    s.dvalid = true :=
  State.dvalid_of_digest (h.shown herr hfin)

/-- Without a fault FIN = 1 comes with DVALID = 1; in FAULT the digest is hidden, and USE_AFTER_FINAL comes with FIN = 1. -/
theorem State.Inv.status_mem {s : State} (h : s.Inv) : s.status ∈ visibleStatus := by
  rw [State.status_eq]
  cases herr : s.err with
  | false =>
    rw [h.errCode_of_live herr]
    cases hfin : s.fin with
    | false => cases s.dvalid <;> decide
    | true => rw [h.dvalid_of_finalized herr hfin]; decide
  | true =>
    have hd : s.dvalid = false := by rw [State.dvalid, h.hidden herr, Option.isSome_none]
    rw [hd]
    cases hcode : s.errCode with
    | noFault => exact absurd hcode (h.code.1 herr)
    | illegalCommand => cases s.fin <;> decide
    | useAfterFinal => rw [h.misuse hcode]; decide
    | badContext => cases s.fin <;> decide

/-- One step more at the end of a run. -/
theorem core_run_snoc {k : Nat} {s t u : State} (hrun : Sys2Proof.core.run k s = .next t) (hstep : step t = .next u) :
    Sys2Proof.core.run (k + 1) s = .next u := by
  induction k generalizing s with
  | zero =>
    obtain rfl : s = t := Host.Outcome.next.inj hrun
    exact (core_run_succ Sys2Proof.core 0 hstep).trans (core_run_zero Sys2Proof.core u)
  | succ k ih =>
    obtain ⟨v, hv⟩ := step_next s
    rw [core_run_succ Sys2Proof.core k hv] at hrun
    rw [core_run_succ Sys2Proof.core (k + 1) hv]
    exact ih hrun

theorem Reachable.step {s t : State} (h : Reachable s) (hstep : step s = .next t) : Reachable t := by
  obtain ⟨pins, script, k, hrun⟩ := h
  exact ⟨pins, script, k + 1, core_run_snoc hrun hstep⟩

/-- The reset state with the host's sample on the ports and its samples to come. -/
def resetWith (p : Pins) (ps : List Pins) : State := { State.reset with pins := p, script := ps }

theorem reachable_reset (p : Pins) (ps : List Pins) : Reachable (resetWith p ps) := ⟨p, ps, 0, rfl⟩

/-- ACTIVE and FINALIZED are reached with any sample the host chooses on the ports: by reset, and by a FINAL after it. -/
theorem reachable_live (fin : Bool) (p : Pins) : ∃ s, Reachable s ∧ s.pins = p ∧ s.err = false ∧ s.fin = fin := by
  cases fin with
  | false => exact ⟨_, reachable_reset p [], rfl, rfl, rfl⟩
  | true =>
    have hstep : step (resetWith (beat .final 0) [p]) = .next ((resetWith (beat .final 0) [p]).finish.setFin true).nextPins :=
      step_of_beat rfl (exec_final rfl rfl)
    refine ⟨_, (reachable_reset _ _).step hstep, ?_, by simp [resetWith, State.reset], by simp⟩
    rw [nextPins_of_cons (p := p) (ps := []) (by simp [resetWith])]

/-- A fault that a sample raises in ACTIVE or FINALIZED is reached, and `status` then shows its cause. -/
theorem reachable_fault {c : ErrCode} {fin : Bool} (p : Pins)
    (hfault : ∀ s : State, s.pins = p → s.err = false → s.fin = fin → step s = .next (s.raiseFault c).nextPins) :
    ∃ s, Reachable s ∧ s.status = statusByte c false true fin := by
  obtain ⟨s, hs, hpins, herr, hfin⟩ := reachable_live fin p
  exact ⟨_, hs.step (hfault s hpins herr hfin), by simp [State.status_eq, State.dvalid, hfin]⟩

theorem reachable_illegalCommand (fin : Bool) : ∃ s, Reachable s ∧ s.status = statusByte .illegalCommand false true fin := by
  refine reachable_fault { Pins.idle with cmdValid := true, cmd := 0x0600 } fun s hpins herr _ => ?_
  have hdec : decode s.pins.cmd = .reserved .opcode := by rw [hpins]; decide
  exact step_of_reserved (by rw [hpins]; rfl) (by rw [hpins]) hdec herr

theorem reachable_useAfterFinal : ∃ s, Reachable s ∧ s.status = statusByte .useAfterFinal false true true :=
  reachable_fault (beat .final 0) fun _ hpins herr hfin => step_of_beat hpins (exec_of_misuse herr hfin rfl)

/-- N' = 1 with L' = 0. -/
theorem ctxValid_fill_one : ctxValid (1 <<< 224) = false := by decide +kernel

theorem reachable_badContext (fin : Bool) : ∃ s, Reachable s ∧ s.status = statusByte .badContext false true fin :=
  reachable_fault (beat .ctxload (1 <<< 224)) fun s hpins herr _ =>
    step_of_beat hpins (exec_ctxload_invalid herr (by rw [hpins]; exact ctxValid_fill_one))

/-- A digest is valid in ACTIVE after FINALR. -/
theorem reachable_active_with_digest : ∃ s, Reachable s ∧ s.status = statusByte .noFault true false false := by
  have hstep : step (resetWith (beat .finalr 0) []) = .next (resetWith (beat .finalr 0) []).finish.reinit.nextPins :=
    step_of_beat rfl (exec_finalr rfl rfl)
  exact ⟨_, (reachable_reset _ _).step hstep, by simp [State.status_eq, State.dvalid, resetWith, State.reset]⟩

theorem reachable_finalized : ∃ s, Reachable s ∧ s.status = statusByte .noFault true false true := by
  obtain ⟨s, hs, -, herr, hfin⟩ := reachable_live true Pins.idle
  refine ⟨s, hs, ?_⟩
  rw [State.status_eq, hs.inv.errCode_of_live herr, hs.inv.dvalid_of_finalized herr hfin, herr, hfin]

theorem reachable_of_visible {v : BitVec 8} (hv : v ∈ visibleStatus) : ∃ s, Reachable s ∧ s.status = v := by
  simp only [visibleStatus, List.mem_cons, List.not_mem_nil, or_false] at hv
  rcases hv with rfl | rfl | rfl | rfl | rfl | rfl | rfl | rfl
  · exact ⟨_, reachable_reset Pins.idle [], rfl⟩
  · exact reachable_active_with_digest
  · exact reachable_finalized
  · exact reachable_illegalCommand false
  · exact reachable_illegalCommand true
  · exact reachable_useAfterFinal
  · exact reachable_badContext false
  · exact reachable_badContext true

/-- Settles O52. -/
theorem statusPortShowsTheFlags : Obligations.StatusPortShowsTheFlags := by
  unfold Obligations.StatusPortShowsTheFlags
  exact ⟨fun s => statusByte_fields s.errCode s.dvalid s.err s.fin, fun _ h => h.status_mem,
    fun _ h => h.dvalid_of_finalized, fun _ => reachable_of_visible⟩

end Sys2Proof.Machine
end

section
/-! INPUT of a byte sequence and the digest that the padding leaves of it (41_buffer_commands.md R145, R146, 42_finalization.md R171). -/

namespace Sys2Proof.Machine

/-- PUSH's effect for each byte of a sequence, in order (30_encoding.md R102). -/
def State.absorbAll : List Byte → State → State
  | [], s => s
  | b :: bs, s => State.absorbAll bs (s.absorb b)

theorem State.absorb_eq_emit (b : Byte) (s : State) : s.absorb b = { s.emit b with len := s.len + 1 } :=
  State.emit_withLen b s _

/-- Absorbing emits the bytes and counts LEN up by their number (41_buffer_commands.md R142). -/
theorem State.absorbAll_eq_emitAll (bs : List Byte) (s : State) :
    s.absorbAll bs = { State.emitAll bs s with len := s.len + BitVec.ofNat 64 bs.length } := by
  induction bs generalizing s with
  | nil => simp [State.absorbAll, State.emitAll]
  | cons b bs ih =>
    have hemit : State.emitAll bs (s.absorb b) = { State.emitAll (b :: bs) s with len := s.len + 1 } := by
      rw [State.absorb_eq_emit, State.emitAll_withLen, State.emitAll]
    have hlen : s.len + 1 + BitVec.ofNat 64 bs.length = s.len + BitVec.ofNat 64 (b :: bs).length := by
      rw [List.length_cons, Nat.add_comm, BitVec.ofNat_add, ← BitVec.add_assoc]; rfl
    rw [State.absorbAll, ih, hemit, State.absorb_len, hlen]

section fields

variable (bs : List Byte) (s : State)

@[simp] theorem State.absorbAll_h : (s.absorbAll bs).h = (State.emitAll bs s).h := by rw [State.absorbAll_eq_emitAll]
@[simp] theorem State.absorbAll_n : (s.absorbAll bs).n = (State.emitAll bs s).n := by rw [State.absorbAll_eq_emitAll]
@[simp] theorem State.absorbAll_buf : (s.absorbAll bs).buf = (State.emitAll bs s).buf := by rw [State.absorbAll_eq_emitAll]
@[simp] theorem State.absorbAll_len : (s.absorbAll bs).len = s.len + BitVec.ofNat 64 bs.length := by
  rw [State.absorbAll_eq_emitAll]
@[simp] theorem State.absorbAll_fin : (s.absorbAll bs).fin = s.fin := by simp [State.absorbAll_eq_emitAll]
@[simp] theorem State.absorbAll_err : (s.absorbAll bs).err = s.err := by simp [State.absorbAll_eq_emitAll]
@[simp] theorem State.absorbAll_errCode : (s.absorbAll bs).errCode = s.errCode := by simp [State.absorbAll_eq_emitAll]
@[simp] theorem State.absorbAll_digest : (s.absorbAll bs).digest = s.digest := by simp [State.absorbAll_eq_emitAll]
@[simp] theorem State.absorbAll_digestDraw : (s.absorbAll bs).digestDraw = s.digestDraw := by
  simp [State.absorbAll_eq_emitAll]
@[simp] theorem State.absorbAll_pins : (s.absorbAll bs).pins = s.pins := by simp [State.absorbAll_eq_emitAll]
@[simp] theorem State.absorbAll_script : (s.absorbAll bs).script = s.script := by simp [State.absorbAll_eq_emitAll]

end fields

/-- Emitting does not read LEN, so H is the same as after the two sequences emitted in one. -/
theorem State.emitAll_absorbAll_h (bs cs : List Byte) (s : State) :
    (State.emitAll cs (s.absorbAll bs)).h = (State.emitAll (bs ++ cs) s).h := by
  rw [State.absorbAll_eq_emitAll, State.emitAll_withLen, State.emitAll_append]

/-- INPUT in ACTIVE absorbs its bytes (30_encoding.md R102). -/
theorem execAll_inputCmds (bs : List Byte) {s : State} (herr : s.err = false) (hfin : s.fin = false) :
    execAll (inputCmds bs) s = .next (s.absorbAll bs) := by
  induction bs generalizing s with
  | nil => rfl
  | cons b bs ih =>
    rw [inputCmds, List.map_cons, execAll_cons _ (exec_push herr hfin b), State.absorbAll]
    exact ih (by rw [State.absorb_err, herr]) (by rw [State.absorb_fin, hfin])

/-- H is chained over the whole blocks of PB ++ bytes, and the rest is the Pending Buffer (41_buffer_commands.md R146). -/
theorem State.absorbAll_holds {s : State} {pb : List Byte} (h : s.Holds pb) (bs : List Byte) :
    (s.absorbAll bs).Holds ((pb ++ bs).drop (64 * ((pb ++ bs).length / 64))) :=
  (State.emitAll_holds h bs).2.of_eq (by simp) (by simp)

/-- The stream and its padding have `paddedBlocks` blocks (42_finalization.md R171). -/
theorem padded_length (s : List Byte) : (padded s).length = 64 * paddedBlocks s.length := by
  rw [padded, List.length_append, pad_length, padZeroCount, paddedBlocks]
  split <;> omega

/-- Padding after a stream that was absorbed from the initial hashing state emits what R171 appends to the stream. -/
theorem State.InitialHashing.finish_absorbAll_h {s : State} (h : s.InitialHashing) (stream : List Byte) :
    (s.absorbAll stream).finish.h = chain iv (padded stream) (paddedBlocks stream.length) := by
  obtain ⟨hh, hn, hbuf, hlen⟩ := h
  have hn' : (s.absorbAll stream).n.toNat = stream.length % 64 := by simp [hn]
  have hlen' : (s.absorbAll stream).len = BitVec.ofNat 64 stream.length := by simp [hlen]
  obtain ⟨hchain, -⟩ := State.emitAll_holds (State.holds_nil hbuf hn) (padded stream)
  calc (s.absorbAll stream).finish.h
      = (State.emitAll (padded stream) s).h := by rw [State.finish_h, hn', hlen', State.emitAll_absorbAll_h, padded]
    _ = chain iv (padded stream) ((padded stream).length / 64) := by rw [hchain, hh, List.nil_append]
    _ = chain iv (padded stream) (paddedBlocks stream.length) := by
      rw [padded_length, Nat.mul_div_cancel_left _ (by decide)]

theorem State.InitialHashing.finish_absorbAll_digest {s : State} (h : s.InitialHashing) (stream : List Byte) :
    (s.absorbAll stream).finish.digest = some (rmd160 stream) := by
  rw [State.finish_digest, h.finish_absorbAll_h, rmd160]

theorem execAll_input_final {s : State} (herr : s.err = false) (hfin : s.fin = false) (stream : List Byte) :
    execAll (inputCmds stream ++ [.final]) s = .next ((s.absorbAll stream).finish.setFin true) := by
  rw [execAll_append _ (execAll_inputCmds stream herr hfin), execAll_cons _ (exec_final (by simp [herr]) (by simp [hfin])),
    execAll_nil]

theorem execAll_input_finalr {s : State} (herr : s.err = false) (hfin : s.fin = false) (stream : List Byte) :
    execAll (inputCmds stream ++ [.finalr]) s = .next (s.absorbAll stream).finish.reinit := by
  rw [execAll_append _ (execAll_inputCmds stream herr hfin), execAll_cons _ (exec_finalr (by simp [herr]) (by simp [hfin])),
    execAll_nil]

theorem State.reinit_initialHashing (s : State) : s.reinit.InitialHashing :=
  ⟨s.reinit_h, s.reinit_n, s.reinit_buf, s.reinit_len⟩

theorem State.rstTransition_initialHashing (s : State) : s.rstTransition.InitialHashing :=
  ⟨s.rstTransition_h, s.rstTransition_n, s.rstTransition_buf, s.rstTransition_len⟩

/-- An update that leaves H, N, BUF and LEN keeps the initial hashing state. -/
theorem State.InitialHashing.of_eq {s t : State} (h : s.InitialHashing) (hh : t.h = s.h) (hn : t.n = s.n)
    (hbuf : t.buf = s.buf) (hlen : t.len = s.len) : t.InitialHashing := by
  rwa [State.InitialHashing, hh, hn, hbuf, hlen]

theorem State.reinit_setFin_initialHashing (s : State) (fin : Bool) : (s.reinit.setFin fin).InitialHashing :=
  s.reinit_initialHashing.of_eq (by simp) (by simp) (by simp) (by simp)

/-- Settles O44. -/
theorem hashPseudoCommandsYieldTheDigest : Obligations.HashPseudoCommandsYieldTheDigest := by
  unfold Obligations.HashPseudoCommandsYieldTheDigest
  refine ⟨fun s stream herr => ?_, fun s stream herr hfin hinit => ?_, fun s hrst => ?_, fun s herr => ?_, fun s herr hfin => ?_⟩
  · have hdigest : (((s.reinit.setFin false).absorbAll stream).finish.setFin true).digest = some (rmd160 stream) := by
      rw [State.setFin_digest, (s.reinit_setFin_initialHashing false).finish_absorbAll_digest]
    refine ⟨_, ?_, State.dvalid_of_digest hdigest, State.digestBytes_of_digest hdigest⟩
    rw [hashCmds, execAll_cons _ (exec_init herr), execAll_input_final (by simp [herr]) (by simp)]
  · have hdigest : (s.absorbAll stream).finish.reinit.digest = some (rmd160 stream) := by
      rw [State.reinit_digest, hinit.finish_absorbAll_digest]
    exact ⟨_, execAll_input_finalr herr hfin stream, State.dvalid_of_digest hdigest, State.digestBytes_of_digest hdigest,
      State.reinit_initialHashing _⟩
  · exact ⟨_, step_rst hrst, by simp, by simp, s.rstTransition_initialHashing.of_eq (by simp) (by simp) (by simp) (by simp)⟩
  · exact ⟨_, exec_init herr, by simp [herr], by simp, s.reinit_setFin_initialHashing false⟩
  · exact ⟨_, exec_finalr herr hfin, by simp [herr], by simp [hfin], s.finish.reinit_initialHashing⟩

end Sys2Proof.Machine
end

section
/-! COMPRESS through the context port (30_encoding.md R105): the image img0, one block absorbed from an empty buffer, and the
words of `ctx_out`. -/

namespace Sys2Proof.Machine

theorem ctxWord_rawImage (h : HashState) (w : Nat) : ctxWord (rawImage h) w = h.words.getD w 0 :=
  portWord_packWords 768 h.words (by simp [HashState.words]) w

/-- The fields of img0(h): H is h, the other words are 0. -/
theorem ctxHash_rawImage (h : HashState) : ctxHash (rawImage h) = h := by
  simp [ctxHash, ctxWord_rawImage, HashState.words]

theorem ctxLen_rawImage (h : HashState) : ctxLen (rawImage h) = 0 := by
  simp [ctxLen, ctxWord_rawImage, HashState.words]

theorem ctxFill_rawImage (h : HashState) : ctxFill (rawImage h) = 0 := by
  simp [ctxFill, ctxWord_rawImage, HashState.words]

theorem ctxReserved_rawImage (h : HashState) : ctxReserved (rawImage h) = 0 := by
  simp [ctxReserved, ctxWord_rawImage, HashState.words]

theorem ctxPending_rawImage (h : HashState) : ctxPending (rawImage h) = [] := by
  rw [ctxPending, ctxFill_rawImage]; rfl

theorem ctxValid_rawImage (h : HashState) : ctxValid (rawImage h) = true := by
  rw [ctxValid, ctxReserved_rawImage, ctxFill_rawImage, ctxLen_rawImage]; rfl

/-- CTXLOAD of img0(h) (43_context.md R184). -/
theorem loadImage_rawImage (h : HashState) (s : State) :
    s.loadImage (rawImage h) = { s with h := h, n := 0, buf := [], len := 0, fin := false } := by
  rw [State.loadImage, ctxHash_rawImage, ctxFill_rawImage, ctxPending_rawImage, ctxLen_rawImage, bufWrite]

theorem blockAt_toList (block : Block) : blockAt block.toList 0 = block := by
  apply Vector.ext
  intro i hi
  simp [hi]

/-- One block absorbed into an empty buffer is one compression (41_buffer_commands.md R143, R144). -/
theorem State.absorbAll_block {s : State} (h : s.Holds []) (block : Block) :
    s.absorbAll block.toList = { s with h := compress s.h block, n := 0, buf := [], len := s.len + 64 } := by
  obtain ⟨hh, -⟩ := State.emitAll_holds h block.toList
  obtain ⟨hbuf, hn⟩ := State.absorbAll_holds h block.toList
  have hchain : chain s.h ([] ++ block.toList) (([] ++ block.toList).length / 64) = compress s.h block := by
    rw [List.nil_append, Vector.length_toList, Nat.div_self (by decide), chain_succ, chain_zero, blockAt_toList]
  have hrest : ([] ++ block.toList).drop (64 * (([] ++ block.toList).length / 64)) = [] := by simp
  rw [hchain] at hh
  rw [hrest] at hbuf hn
  apply State.ext
  case h => rw [State.absorbAll_h, hh]
  case n => exact BitVec.eq_of_toNat_eq hn
  case buf => rw [hbuf, cellsFrom]
  case len => rw [State.absorbAll_len, Vector.length_toList]; rfl
  all_goals simp

/-- Words 0..4 of `ctx_out` are H (43_context.md R181). -/
theorem State.ctxOut_hashWord (s : State) (i : Fin 5) : s.ctxOut.extractLsb' (32 * i.val) 32 = s.h.word i := by
  rw [State.ctxOut_word, ← words_getD]
  exact List.getD_append s.h.words _ 0 i.val i.isLt

/-- Settles O40. -/
theorem rawCompressionThroughTheContextPort : Obligations.RawCompressionThroughTheContextPort := by
  unfold Obligations.RawCompressionThroughTheContextPort
  intro s h block herr hctx
  have hload : exec .ctxload s = .next (s.loadImage (rawImage h)) := by
    rw [exec_ctxload_valid herr (by rw [hctx]; exact ctxValid_rawImage h), hctx]
  have hempty : (s.loadImage (rawImage h)).Holds [] := by
    rw [← ctxPending_rawImage h]
    exact State.loadImage_holds _ s
  have hrun : execAll (compressCmds block) s = .next ((s.loadImage (rawImage h)).absorbAll block.toList) := by
    rw [compressCmds, execAll_cons _ hload, execAll_inputCmds _ (by simp [herr]) (by simp)]
  refine ⟨_, hrun, ?_, fun i => ?_⟩
  · rw [State.absorbAll_block hempty, loadImage_rawImage]
    simp
  · rw [State.ctxOut_hashWord, State.absorbAll_block hempty, State.loadImage_h, ctxHash_rawImage]

end Sys2Proof.Machine
end

section
/-! The Compression Engine at its ports (40_compression.md R127): what a chaining value and a block put on a port read back as. -/

namespace Sys2Proof.Machine

/-- Word i of a port is its bytes 4i .. 4i+3 put together little-endian (20_memory.md R52, 30_encoding.md R98). -/
theorem portWord_eq_le32 (width : Nat) (v : BitVec width) (i : Nat) :
    portWord width v i =
      le32 (portByte width v (4 * i)) (portByte width v (4 * i + 1)) (portByte width v (4 * i + 2)) (portByte width v (4 * i + 3)) := by
  rw [← le32_byteOf (portWord width v i)]
  simp only [byteOf_portWord, Nat.reduceLT, Nat.add_zero]

theorem hashFromPort_hashToPort (h : HashState) : hashFromPort (hashToPort h) = h := by
  have hword (w : Nat) : portWord 160 (hashToPort h) w = h.words.getD w 0 := portWord_packWords 160 h.words (Nat.le_refl 160) w
  simp [hashFromPort, hword, HashState.words]

theorem portByte_packBytes_block (block : Block) {k : Nat} (hk : k < 64) :
    portByte 512 (BitVec.ofNat 512 (packBytes block.toList)) k = block[k] := by
  rw [portByte_packBytes 512 block.toList (by simp) k]
  simp [hk]

theorem blockFromPort_packBytes (block : Block) : blockFromPort (BitVec.ofNat 512 (packBytes block.toList)) = block := by
  apply Vector.ext
  intro k hk
  rw [blockFromPort, Vector.getElem_ofFn, portByte_packBytes_block block hk]

theorem portWord_packBytes_block (block : Block) (i : Fin 16) :
    portWord 512 (BitVec.ofNat 512 (packBytes block.toList)) i.val = msgWord block i := by
  have hbyte {k : Nat} (hk : k < 64) := portByte_packBytes_block block hk
  rw [portWord_eq_le32, hbyte (by omega), hbyte (by omega), hbyte (by omega), hbyte (by omega), msgWord]

/-- Settles O51: the ports give back the chaining value and the block that were put on them. -/
theorem compressionPortsCarryCompress : Obligations.CompressionPortsCarryCompress := by
  unfold Obligations.CompressionPortsCarryCompress
  intro h block
  refine ⟨?_, hashToPort_word h, portWord_packBytes_block block⟩
  rw [compressPorts, hashFromPort_hashToPort, blockFromPort_packBytes]

end Sys2Proof.Machine
end

section
/-! The Boolean functions bit by bit (40_compression.md R112). -/

namespace Sys2Proof.Machine

/-- What a Boolean function does to one bit of each argument. -/
def BoolFn.evalBit (f : BoolFn) (a b c : Bool) : Bool :=
  match f with
  | .f1 => a ^^ b ^^ c
  | .f2 => (a && b) || (!a && c)
  | .f3 => (a || !b) ^^ c
  | .f4 => (a && c) || (b && !c)
  | .f5 => a ^^ (b || !c)

theorem BoolFn.getLsbD_eval (f : BoolFn) (x y z : Word) {i : Nat} (hi : i < 32) :
    (f.eval x y z).getLsbD i = f.evalBit (x.getLsbD i) (y.getLsbD i) (z.getLsbD i) := by
  cases f <;> simp [BoolFn.eval, BoolFn.evalBit, hi]

theorem BoolFn.evalBit_truthTables (a b c : Bool) :
    let entry := 4 * a.toNat + 2 * b.toNat + c.toNat
    (BoolFn.f1.evalBit a b c).toNat = [0, 1, 1, 0, 1, 0, 0, 1].getD entry 0 ∧
    (BoolFn.f2.evalBit a b c).toNat = [0, 1, 0, 1, 0, 0, 1, 1].getD entry 0 ∧
    (BoolFn.f3.evalBit a b c).toNat = [1, 0, 0, 1, 1, 0, 1, 0].getD entry 0 ∧
    (BoolFn.f4.evalBit a b c).toNat = [0, 0, 1, 0, 0, 1, 1, 1].getD entry 0 ∧
    (BoolFn.f5.evalBit a b c).toNat = [1, 0, 1, 1, 0, 1, 0, 0].getD entry 0 := by
  revert a b c
  decide

/-- Settles O47: the functions act bitwise, so the truth tables are those of one bit. -/
theorem booleanFunctionsHaveTheStatedTruthTables : Obligations.BooleanFunctionsHaveTheStatedTruthTables := by
  unfold Obligations.BooleanFunctionsHaveTheStatedTruthTables
  refine ⟨fun x y z i hi => ?tables, fun x y z => ⟨rfl, rfl, rfl, rfl, rfl⟩, ?sample⟩
  case tables =>
    simp only [BoolFn.getLsbD_eval _ x y z hi]
    exact BoolFn.evalBit_truthTables _ _ _
  case sample => decide

end Sys2Proof.Machine
end

section
/-! The tables of the two lines (40_compression.md R116 to R119, R128, R129). -/

namespace Sys2Proof.Machine

/-- Settles O48: the five rounds of each line, written out. -/
theorem lineTablesAreThePerStepListing : Obligations.LineTablesAreThePerStepListing := by
  unfold Obligations.LineTablesAreThePerStepListing
  exact ⟨rfl, rfl⟩

/-- The steps of both lines read the message words that the selection tables list, round after round. -/
theorem rows_messageWords : (leftRows ++ rightRows).map StepRow.r = (leftSelect ++ rightSelect).flatten := by
  have hleft : leftRows.map StepRow.r = leftSelect.flatten := rfl
  have hright : rightRows.map StepRow.r = rightSelect.flatten := rfl
  rw [List.map_append, List.flatten_append, hleft, hright]

/-- A row of 16 entries with every message word once: a permutation of 0..15. -/
theorem select_permutes : ∀ row ∈ leftSelect ++ rightSelect, row.length = 16 ∧ ∀ i : Fin 16, row.count i = 1 := by decide

/-- Ten rows, each a permutation, use a message word ten times. -/
theorem messageWord_used_ten_times (i : Fin 16) : (leftRows ++ rightRows).countP (fun row => row.r = i) = 10 := by
  have hone : ∀ n ∈ (leftSelect ++ rightSelect).map (List.count i), n = 1 :=
    List.forall_mem_map.mpr fun row hrow => (select_permutes row hrow).2 i
  calc (leftRows ++ rightRows).countP (fun row => row.r = i)
    _ = ((leftRows ++ rightRows).map StepRow.r).count i := by rw [List.count, List.countP_map]; rfl
    _ = ((leftSelect ++ rightSelect).map (List.count i)).sum := by rw [rows_messageWords, List.count_flatten]
    _ = 10 := by rw [List.eq_replicate_of_mem hone, List.length_map]; rfl

/-- Settles O49. -/
theorem selectionTablesArePermutationsByRho : Obligations.SelectionTablesArePermutationsByRho := by
  unfold Obligations.SelectionTablesArePermutationsByRho
  refine ⟨select_permutes, rfl, rfl, rfl, messageWord_used_ten_times, rfl, ?leftRho, ?rightRho⟩
  case leftRho => decide
  case rightRho => decide

end Sys2Proof.Machine
end

section
/-! Known answers of `compress` (40_compression.md R124). -/

namespace Sys2Proof.Machine

/-- The final combination of the two lines (40_compression.md R123, R124). -/
theorem compress_of_lines {h : HashState} {block : Block} {l r : Line} (hl : runLine block leftRows (loadLine h) = l)
    (hr : runLine block rightRows (loadLine h) = r) : compress h block = combine h l r := by
  rw [compress, hl, hr]

/-- The left line's registers after step 79 of the trace (96_trace_and_reference.md section 1). -/
theorem leftLine_tracedBlock :
    runLine (blockAt (0x80 :: List.replicate 63 0x00) 0) leftRows (loadLine iv) =
      ⟨0x594637A7, 0x215D97B3, 0xEBA027EB, 0xB99CDC7A, 0xEC4DCDFF⟩ := by
  decide +kernel

/-- The right line's registers after step 79 of the trace (96_trace_and_reference.md section 1). -/
theorem rightLine_tracedBlock :
    runLine (blockAt (0x80 :: List.replicate 63 0x00) 0) rightRows (loadLine iv) =
      ⟨0x9A8805EC, 0x2BDCCEE7, 0xA8EA6AFE, 0xCA173E28, 0x02A5304D⟩ := by
  decide +kernel

/-- Settles O50: the first block by its trace; the second, of which the spec has no trace, by evaluation. -/
theorem compressGivesTheKnownAnswers : Obligations.CompressGivesTheKnownAnswers := by
  unfold Obligations.CompressGivesTheKnownAnswers
  constructor
  · rw [compress_of_lines leftLine_tracedBlock rightLine_tracedBlock]
    decide
  · decide +kernel

end Sys2Proof.Machine
end

section
/-! The Block Buffer commands INIT and PUSH (41_buffer_commands.md R141 to R147): the whole next state of each, `emit` below and at
offset 63, and the state that INPUT leaves. -/

namespace Sys2Proof.Machine

/-- A stored byte is read back at its offset, and every other offset reads as before. -/
theorem Memory.read_bufWrite_singleton (m : Memory) (off : Nat) (b : Byte) (k : Nat) :
    Memory.read (bufWrite m off [b]) k = if k = off then some b else Memory.read m k := by
  rw [bufWrite, bufWrite, Memory.read_write]

/-- The buffer reads as the sequence it holds, and as no value beyond it. -/
theorem State.Holds.read {s : State} {pb : List Byte} (h : s.Holds pb) (k : Nat) : Memory.read s.buf k = pb[k]? := by
  obtain ⟨hbuf, -⟩ := h
  rw [hbuf, read_cellsFrom, if_pos (Nat.zero_le k), Nat.sub_zero]

/-- `initial()` and FIN <- 0 change nothing where they hold already. -/
theorem State.InitialHashing.reinit_setFin_eq {s : State} (h : s.InitialHashing) (hfin : s.fin = false) :
    s.reinit.setFin false = s := by
  obtain ⟨hh, hn, hbuf, hlen⟩ := h
  apply State.ext
  case h => simp [hh]
  case n => simp [hn]
  case buf => simp [hbuf]
  case len => simp [hlen]
  case fin => simp [hfin]
  all_goals simp

/-- HASH from any state with ERR = 0: what was absorbed before its INIT is gone (30_encoding.md R103). -/
theorem execAll_hashCmds {s : State} (herr : s.err = false) (stream : List Byte) :
    execAll (hashCmds stream) s = .next (((s.reinit.setFin false).absorbAll stream).finish.setFin true) := by
  rw [hashCmds, execAll_cons _ (exec_init herr), execAll_input_final (by simp [herr]) (by simp)]

/-- Settles O16. -/
theorem initRestoresTheInitialHashingState : Obligations.InitRestoresTheInitialHashingState := by
  unfold Obligations.InitRestoresTheInitialHashingState
  refine fun s => ⟨fun herr => ?_, fun herr => exec_of_err herr _, fun hinit hfin => ?_, fun herr stream => ?_⟩
  · rw [exec_init herr, State.reinit, State.setFin, iv]
  · cases herr : s.err with
    | true => exact exec_of_err herr _
    | false => rw [exec_init herr, hinit.reinit_setFin_eq hfin]
  · refine ⟨_, execAll_hashCmds herr stream, ?_⟩
    rw [State.setFin_digest, (s.reinit_setFin_initialHashing false).finish_absorbAll_digest]

/-- emit below offset 63, as a whole next state (41_buffer_commands.md R143). -/
theorem State.emit_eq_of_ne {s : State} (hn : s.n ≠ 63) (b : Byte) :
    s.emit b = { s with n := s.n + 1, buf := bufWrite s.buf s.n.toNat [b] } := by
  rw [State.emit, if_neg hn, State.countByte, State.storeByte]

/-- emit at offset 63, as a whole next state (41_buffer_commands.md R143, R144). -/
theorem State.Holds.emit_eq_of_full {s : State} {pb : List Byte} (h : s.Holds pb) (hl : pb.length = 63) (b : Byte) :
    s.emit b = { s with h := compress s.h (blockAt (pb ++ [b]) 0), n := 0, buf := [] } := by
  obtain ⟨hh, hbuf, hn⟩ := State.emit_full h b hl
  apply State.ext
  case h => exact hh
  case n => exact BitVec.eq_of_toNat_eq hn
  case buf => exact hbuf
  all_goals simp

/-- Settles O18. -/
theorem pushStoresTheByteAtTheFillCount : Obligations.PushStoresTheByteAtTheFillCount := by
  unfold Obligations.PushStoresTheByteAtTheFillCount
  refine fun s b herr hfin hn => ⟨?_, Memory.read_bufWrite_singleton s.buf s.n.toNat b⟩
  rw [exec_push herr hfin, State.absorb_eq_emit, State.emit_eq_of_ne hn]

/-- The block completed at offset 63 is the 63 bytes of the buffer and the byte written last. -/
theorem State.Holds.eq_blockAt {s : State} {pb : List Byte} (h : s.Holds pb) (hl : pb.length = 63) {b : Byte} {block : Block}
    (hblock : ∀ k : Fin 64, block[k.val] = if k.val = 63 then b else (Memory.read s.buf k.val).getD 0) :
    block = blockAt (pb ++ [b]) 0 := by
  apply Vector.ext
  intro k hk
  rw [hblock ⟨k, hk⟩, h.read, getElem_blockAt, Nat.mul_zero, Nat.zero_add, List.getD_eq_getElem?_getD]
  split
  case isTrue hlast => simp [show k = pb.length from hlast.trans hl.symm]
  case isFalse hbefore =>
    have hlt : k < pb.length := by simp only at hbefore; omega
    rw [List.getElem?_append_left hlt]

/-- Settles O19. -/
theorem pushAtOffset63CompletesTheBlock : Obligations.PushAtOffset63CompletesTheBlock := by
  unfold Obligations.PushAtOffset63CompletesTheBlock
  intro s b block herr hfin hn hpending hblock
  have hp : s.Holds s.pending := State.holds_pending hpending
  have hl : s.pending.length = 63 := by rw [State.pending_length, hn]; rfl
  rw [exec_push herr hfin, State.absorb_eq_emit, hp.emit_eq_of_full hl, ← hp.eq_blockAt hl hblock]

/-- emit in terms of the Pending Buffer (41_buffer_commands.md R143). -/
theorem State.Holds.emit_cases {s : State} {pb : List Byte} (h : s.Holds pb) (b : Byte) :
    ((pb ++ [b]).length = 64 ∧ (s.emit b).h = compress s.h (blockAt (pb ++ [b]) 0) ∧ (s.emit b).Holds []) ∨
    ((pb ++ [b]).length ≠ 64 ∧ (s.emit b).h = s.h ∧ (s.emit b).Holds (pb ++ [b])) := by
  rw [List.length_append, List.length_singleton]
  by_cases hl : pb.length = 63
  · exact .inl ⟨by omega, State.emit_full h b hl⟩
  · exact .inr ⟨by omega, State.emit_within h b hl⟩

/-- Settles O20. -/
theorem emitAppendsToThePendingBuffer : Obligations.EmitAppendsToThePendingBuffer := by
  unfold Obligations.EmitAppendsToThePendingBuffer
  refine ⟨fun s b hpending => ?_, fun s b hn => State.emit_eq_of_ne hn b, fun s herr hfin => ⟨?_, ?_, ?_⟩⟩
  · rcases (State.holds_pending hpending).emit_cases b with ⟨hlen, hh, hp⟩ | ⟨hlen, hh, hp⟩
    · rw [if_pos hlen]
      exact ⟨hp.bufferIsPending, (State.pending_length _).symm, State.emit_len b s, hh, hp.pending⟩
    · rw [if_neg hlen]
      exact ⟨hp.bufferIsPending, (State.pending_length _).symm, State.emit_len b s, hh, hp.pending⟩
  · intro b
    rw [exec_push herr hfin, State.absorb, add64]
  · rw [exec_final herr hfin, State.finish_eq_latch]
  · rw [exec_finalr herr hfin, State.finish_eq_latch]

/-- INPUT changes the hashing state only (41_buffer_commands.md R146). -/
theorem State.absorbAll_frame (bs : List Byte) (s : State) :
    s.absorbAll bs = { s with h := (s.absorbAll bs).h, n := (s.absorbAll bs).n, buf := (s.absorbAll bs).buf,
                              len := (s.absorbAll bs).len } := by
  apply State.ext <;> simp

/-- Settles O41. -/
theorem stateIsAFunctionOfTheStream : Obligations.StateIsAFunctionOfTheStream := by
  unfold Obligations.StateIsAFunctionOfTheStream
  intro s stream herr hfin hinit
  obtain ⟨hh, hn, hbuf, hlen⟩ := hinit
  have hempty : s.Holds [] := State.holds_nil hbuf hn
  obtain ⟨hchain, -⟩ := State.emitAll_holds hempty stream
  have hp := State.absorbAll_holds hempty stream
  rw [List.nil_append] at hchain hp
  refine ⟨_, execAll_inputCmds stream herr hfin, ?_, hp.pending, ?_, ?_, hp.bufferIsPending, State.absorbAll_frame stream s⟩
  · rw [State.absorbAll_h, hchain, hh]
  · simp [hn]
  · simp [hlen]

/-- INPUT of the pieces is the commands of INPUT of the whole stream (41_buffer_commands.md R145, 30_encoding.md R102). -/
theorem flatten_map_inputCmds (pieces : List (List Byte)) : (pieces.map inputCmds).flatten = inputCmds pieces.flatten :=
  List.map_flatten.symm

/-- Settles O42: the pieces are the same commands. -/
theorem chunkingNeverMatters : Obligations.ChunkingNeverMatters := by
  unfold Obligations.ChunkingNeverMatters
  refine ⟨fun pieces s => ?_, fun s => execAll_nil s⟩
  rw [flatten_map_inputCmds]
  exact ⟨rfl, rfl, rfl⟩

end Sys2Proof.Machine
end

section
/-! FINAL and FINALR (42_finalization.md R161 to R171): the padding byte by byte, the whole state they leave, the number of
compressions, and the digest of a stream. -/

namespace Sys2Proof.Machine

/-- z as R161 states it for the two cases. -/
theorem padZeroCount_eq {n : Nat} (hn : n < 64) : padZeroCount n = if n ≤ 55 then 55 - n else 119 - n := by
  rw [padZeroCount]
  split <;> omega

/-- The zero bytes end 8 bytes before a block boundary (42_finalization.md R161). -/
theorem fill_add_padZeroCount_mod {n : Nat} (hn : n < 64) : (n + 1 + padZeroCount n) % 64 = 56 := by
  rw [padZeroCount]
  omega

/-- Settles O22. -/
theorem paddingHasTheStatedShape : Obligations.PaddingHasTheStatedShape := by
  unfold Obligations.PaddingHasTheStatedShape
  intro n len hn
  have hlen : (pad n len).length = if n ≤ 55 then 64 - n else 128 - n := by
    rw [pad_length, padZeroCount_eq hn]
    split <;> omega
  refine ⟨padZeroCount n, by rw [pad, lenBits, shl64, padMarker], padZeroCount_eq hn, fill_add_padZeroCount_mod hn, ?_,
    hlen, fun pb hpb => ?_⟩
  · intro z' hz'
    rw [padZeroCount]
    omega
  · rw [List.length_append, hpb, hlen]
    split <;> omega

/-- Settles O23. -/
theorem finalEmitsThePaddingThenLatches : Obligations.FinalEmitsThePaddingThenLatches := by
  unfold Obligations.FinalEmitsThePaddingThenLatches
  intro s herr hfin
  rw [exec_final herr hfin, State.finish_eq_latch, State.latch, State.setFin]

theorem getElem?_bytes64 (v : DWord) {k : Nat} (hk : k < 8) : (bytes64 v)[k]? = some (v.extractLsb' (8 * k) 8) := by
  have hbytes : bytes64 v = (List.range 8).map (byteOf64 v) := rfl
  simp [hbytes, hk, byteOf64]

/-- PB ++ pad byte by byte: PB, the marker, zeros up to offset m, then the bit length (42_finalization.md R161, R166). -/
theorem getD_append_pad {pb : List Byte} {n m k : Nat} (len : DWord) (hn : pb.length = n) (hm : n + 1 + padZeroCount n = m)
    (hk : k < m + 8) :
    (pb ++ pad n len).getD k 0 =
      if k < n then pb.getD k 0
      else if k = n then 0x80
      else if k < m then 0x00
      else (len <<< 3).extractLsb' (8 * (k - m)) 8 := by
  simp only [List.getD_eq_getElem?_getD, pad]
  split
  case isTrue hpb => rw [List.getElem?_append_left (by omega)]
  case isFalse hpb =>
    rw [List.getElem?_append_right (by omega), hn]
    split
    case isTrue hmark => rw [hmark, Nat.sub_self]; rfl
    case isFalse hmark =>
      rw [show k - n = (k - n - 1) + 1 by omega, List.getElem?_cons_succ]
      split
      case isTrue hzero =>
        rw [List.getElem?_append_left (by simp; omega), List.getElem?_replicate_of_lt (by omega)]; rfl
      case isFalse hzero =>
        rw [List.getElem?_append_right (by simp; omega), List.length_replicate,
          show k - n - 1 - padZeroCount n = k - m by omega, getElem?_bytes64 _ (by omega)]
        rfl

/-- A buffer that holds the Pending Buffer shows its bytes below N. -/
theorem State.pending_getD {s : State} (h : s.BufferIsPending) (k : Nat) : s.pending.getD k 0 = (Memory.read s.buf k).getD 0 := by
  rw [(State.holds_pending h).read, List.getD_eq_getElem?_getD]

/-- The one padded block of the case N <= 55 (42_finalization.md R166). -/
theorem State.eq_blockAt_padded_of_le {s : State} {block : Block} (h : s.BufferIsPending) (hn : s.n.toNat ≤ 55)
    (hblock : ∀ k : Fin 64, block[k.val] =
      if k.val < s.n.toNat then (Memory.read s.buf k.val).getD 0
      else if k.val = s.n.toNat then 0x80
      else if k.val < 56 then 0x00
      else (s.len <<< 3).extractLsb' (8 * (k.val - 56)) 8) :
    block = blockAt (s.pending ++ pad s.n.toNat s.len) 0 := by
  apply Vector.ext
  intro k hk
  have hm : s.n.toNat + 1 + padZeroCount s.n.toNat = 56 := by rw [padZeroCount]; omega
  rw [hblock ⟨k, hk⟩, getElem_blockAt, Nat.mul_zero, Nat.zero_add, getD_append_pad s.len s.pending_length hm hk,
    State.pending_getD h]

/-- The first padded block of the case N >= 56: PB, the marker, zeros (42_finalization.md R166). -/
theorem State.eq_blockAt_padded_zero {s : State} {first : Block} (h : s.BufferIsPending) (hn : 56 ≤ s.n.toNat)
    (hfirst : ∀ k : Fin 64, first[k.val] =
      if k.val < s.n.toNat then (Memory.read s.buf k.val).getD 0 else if k.val = s.n.toNat then 0x80 else 0x00) :
    first = blockAt (s.pending ++ pad s.n.toNat s.len) 0 := by
  apply Vector.ext
  intro k hk
  have hlt := s.n.isLt
  have hm : s.n.toNat + 1 + padZeroCount s.n.toNat = 120 := by rw [padZeroCount]; omega
  rw [hfirst ⟨k, hk⟩, getElem_blockAt, Nat.mul_zero, Nat.zero_add, getD_append_pad s.len s.pending_length hm (by omega),
    State.pending_getD h, if_pos (show k < 120 by omega)]

/-- The second padded block of the case N >= 56: zeros and the bit length (42_finalization.md R166). -/
theorem State.eq_blockAt_padded_one {s : State} {second : Block} (hn : 56 ≤ s.n.toNat)
    (hsecond : ∀ k : Fin 64, second[k.val] =
      if k.val < 56 then (0x00 : Byte) else (s.len <<< 3).extractLsb' (8 * (k.val - 56)) 8) :
    second = blockAt (s.pending ++ pad s.n.toNat s.len) 1 := by
  apply Vector.ext
  intro k hk
  have hlt := s.n.isLt
  have hm : s.n.toNat + 1 + padZeroCount s.n.toNat = 120 := by rw [padZeroCount]; omega
  rw [hsecond ⟨k, hk⟩, getElem_blockAt, getD_append_pad s.len s.pending_length hm (by omega),
    if_neg (show ¬64 * 1 + k < s.n.toNat by omega), if_neg (show 64 * 1 + k ≠ s.n.toNat by omega)]
  simp only [show 64 * 1 + k - 120 = k - 56 by omega, show 64 * 1 + k < 120 ↔ k < 56 by omega]

theorem pad_ne_nil (n : Nat) (len : DWord) : pad n len ≠ [] := List.cons_ne_nil _ _

/-- The padding ends at a block boundary. -/
theorem State.emitAll_pad_n (s : State) : (State.emitAll (pad s.n.toNat s.len) s).n = 0 := by
  have hmod := fill_add s.n (pad s.n.toNat s.len).length
  rw [fill_add_pad_length, Nat.mul_mod_right] at hmod
  rw [State.emitAll_n]
  exact BitVec.eq_of_toNat_eq hmod

/-- A byte after which N = 0 went to offset 63, so its block was completed and consumed, whatever the buffer held. -/
theorem State.emit_buf_of_n {s : State} {b : Byte} (h : (s.emit b).n = 0) : (s.emit b).buf = [] := by
  rw [State.emit_n] at h
  have hn : s.n = 63 := by bv_omega
  rw [State.emit, if_pos hn, State.emptyBuffer_buf]

theorem State.emitAll_buf_of_n {bs : List Byte} (hbs : bs ≠ []) {s : State} (h : (State.emitAll bs s).n = 0) :
    (State.emitAll bs s).buf = [] := by
  induction bs generalizing s with
  | nil => exact absurd rfl hbs
  | cons b bs ih =>
    rw [State.emitAll] at h ⊢
    cases bs with
    | nil => exact State.emit_buf_of_n h
    | cons c cs => exact ih (List.cons_ne_nil c cs) h

@[simp] theorem State.finish_n (s : State) : s.finish.n = 0 := by
  rw [State.finish_eq_latch, State.latch_n, State.emitAll_pad_n]

@[simp] theorem State.finish_buf (s : State) : s.finish.buf = [] := by
  rw [State.finish_eq_latch, State.latch_buf, State.emitAll_buf_of_n (pad_ne_nil _ _) s.emitAll_pad_n]

/-- The whole state FINAL leaves, in every state (42_finalization.md R169). -/
theorem State.finish_setFin_eq (s : State) :
    s.finish.setFin true =
      { s with h := s.finish.h, n := 0, buf := [], fin := true, digest := some (ser s.finish.h) } := by
  apply State.ext <;> simp

/-- Settles O24. -/
theorem finalCompressesOnePaddedBlock : Obligations.FinalCompressesOnePaddedBlock := by
  unfold Obligations.FinalCompressesOnePaddedBlock
  intro s block herr hfin hpending hn hblock
  have hh : s.finish.h = compress s.h block := by
    rw [State.finish_h_eq_chain hpending, if_pos hn, chain_succ, chain_zero,
      ← State.eq_blockAt_padded_of_le hpending hn hblock]
  rw [exec_final herr hfin, State.finish_setFin_eq, hh]

/-- Settles O25. -/
theorem finalCompressesTwoPaddedBlocks : Obligations.FinalCompressesTwoPaddedBlocks := by
  unfold Obligations.FinalCompressesTwoPaddedBlocks
  intro s first second herr hfin hpending hn hfirst hsecond
  have hh : s.finish.h = compress (compress s.h first) second := by
    rw [State.finish_h_eq_chain hpending, if_neg (by omega), chain_succ, chain_succ, chain_zero,
      ← State.eq_blockAt_padded_zero hpending hn hfirst, ← State.eq_blockAt_padded_one hn hsecond]
  rw [exec_final herr hfin, State.finish_setFin_eq, hh]

/-- Settles O26. -/
theorem stateAfterFinal : Obligations.StateAfterFinal := by
  unfold Obligations.StateAfterFinal
  intro s herr hfin
  have hdigest : (s.finish.setFin true).digest = some (ser (s.finish.setFin true).h) := by simp
  have hempty : (s.finish.setFin true).Holds [] := State.holds_nil (by simp) (by simp)
  exact ⟨_, exec_final herr hfin, by rw [State.setFin_h, State.finish_h], hdigest, hempty.pending, by simp, by simp, by simp,
    by simp, State.dvalid_of_digest hdigest, by simp [herr]⟩

/-- The whole state FINALR leaves (42_finalization.md R163). -/
theorem State.finish_reinit_eq (s : State) :
    s.finish.reinit = { s with h := iv, n := 0, buf := [], len := 0, digest := some (ser s.finish.h) } := by
  apply State.ext <;> simp

/-- Settles O27. -/
theorem finalrLatchesTheDigestThenReinitialises : Obligations.FinalrLatchesTheDigestThenReinitialises := by
  unfold Obligations.FinalrLatchesTheDigestThenReinitialises
  intro s herr hfin
  have hdigest : (s.finish.setFin true).digest = some (ser s.finish.h) := by simp
  refine ⟨_, exec_final herr hfin, by rw [hdigest, State.setFin_h], ?_⟩
  rw [exec_finalr herr hfin, State.finish_reinit_eq, hdigest, iv]

/-- INIT undoes the FIN that FINAL has set, and is otherwise FINALR's last phase (42_finalization.md R170). -/
theorem State.setFin_reinit_setFin {s : State} (hfin : s.fin = false) : (s.setFin true).reinit.setFin false = s.reinit := by
  apply State.ext
  case fin => simp [hfin]
  all_goals simp

/-- Settles O28. -/
theorem finalrEqualsFinalThenInit : Obligations.FinalrEqualsFinalThenInit := by
  unfold Obligations.FinalrEqualsFinalThenInit
  intro s herr hfin
  have hfinalr : execAll [.finalr] s = .next s.finish.reinit := by
    rw [execAll_cons _ (exec_finalr herr hfin), execAll_nil]
  have hfinal : execAll [.final, .init] s = .next s.finish.reinit := by
    rw [execAll_cons _ (exec_final herr hfin), execAll_cons _ (exec_init (by simp [herr])), execAll_nil,
      State.setFin_reinit_setFin (by simp [hfin])]
  exact ⟨_, _, hfinalr, hfinal, rfl, rfl⟩

theorem Seq.start_of_active {s : State} (herr : s.err = false) (hfin : s.fin = false) (i : Instr) :
    Seq.start i s = Seq.entered i s := by
  simp [Seq.start, Seq.entered, herr, hfin]

theorem Seq.Returns.compressions {q : Seq} {t : State} {c : Nat} (h : q.Returns t c) :
    ∃ k, k ≤ 80 ∧ (Seq.run k q).phase = .idle ∧ (Seq.run k q).compressions = c := by
  obtain ⟨k, hk, hidle, -, hcount⟩ := h
  exact ⟨k, hk, hidle, hcount⟩

/-- Settles O31, one lemma per command. -/
theorem compressionsPerCommand : Obligations.CompressionsPerCommand := by
  unfold Obligations.CompressionsPerCommand
  intro i s herr hfin
  rw [Seq.start_of_active herr hfin]
  cases i with
  | init => exact (Seq.init_returns s).compressions
  | push b =>
    have hn : s.n.toNat = 63 ↔ s.n = 63 := BitVec.toNat_inj (y := 63)
    simp only [hn]
    exact (Seq.push_returns b s).compressions
  | final => exact (Seq.final_returns s).compressions
  | finalr => exact (Seq.finalr_returns s).compressions
  | ctxload => exact (Seq.ctxload_returns s).compressions

/-- Settles O43. -/
theorem digestIsRmd160OfTheStream : Obligations.DigestIsRmd160OfTheStream := by
  unfold Obligations.DigestIsRmd160OfTheStream
  intro s stream herr hfin hinit
  have hfinal : ((s.absorbAll stream).finish.setFin true).digest = some (rmd160 stream) := by
    rw [State.setFin_digest, hinit.finish_absorbAll_digest]
  have hfinalr : (s.absorbAll stream).finish.reinit.digest = some (rmd160 stream) := by
    rw [State.reinit_digest, hinit.finish_absorbAll_digest]
  exact ⟨padded_length stream, ⟨_, execAll_input_final herr hfin stream, State.dvalid_of_digest hfinal, hfinal⟩,
    ⟨_, execAll_input_finalr herr hfin stream, State.dvalid_of_digest hfinalr, hfinalr⟩⟩

theorem State.reset_initialHashing : State.reset.InitialHashing := ⟨rfl, rfl, rfl, rfl⟩

/-- Settles O45: after FINALR and after reset the message is absorbed from the same initial hashing state. -/
theorem secondMessageIsNotInfluencedByTheFirst : Obligations.SecondMessageIsNotInfluencedByTheFirst := by
  unfold Obligations.SecondMessageIsNotInfluencedByTheFirst
  intro s stream herr hfin
  have hfinalr : exec .finalr s = .next s.finish.reinit := exec_finalr herr hfin
  have hinit : s.finish.reinit.InitialHashing := State.reinit_initialHashing _
  have hsecond : execAll (.finalr :: (inputCmds stream ++ [.final])) s =
      .next ((s.finish.reinit.absorbAll stream).finish.setFin true) := by
    rw [execAll_cons _ hfinalr, execAll_input_final (by simp [herr]) (by simp [hfin])]
  have hfresh := execAll_input_final (s := State.reset) rfl rfl stream
  refine ⟨⟨_, hfinalr, hinit, by simp [hfin]⟩, _, _, hsecond, hfresh, ?_, ?_, ?_, by simp, by simp, ?_, by simp⟩
  · simp only [State.setFin_digest, hinit.finish_absorbAll_digest, State.reset_initialHashing.finish_absorbAll_digest]
  · rw [State.setFin_digest, hinit.finish_absorbAll_digest]
  · simp only [State.setFin_h, hinit.finish_absorbAll_h, State.reset_initialHashing.finish_absorbAll_h]
  · simp [State.reset]

end Sys2Proof.Machine
end

section
/-! Fields of a wide port: a field splits into two, and into fields of one width. -/

namespace Sys2Proof.Machine

section ports

variable {w : Nat} (u v : BitVec w)

/-- Two ports agree on a field exactly when they agree on its lower and on its upper part. -/
theorem extractLsb'_add_eq_iff (a m n : Nat) :
    u.extractLsb' a (m + n) = v.extractLsb' a (m + n) ↔
      u.extractLsb' a m = v.extractLsb' a m ∧ u.extractLsb' (a + m) n = v.extractLsb' (a + m) n := by
  constructor
  · intro h
    have hsub (c d : Nat) (hcd : c + d ≤ m + n) : u.extractLsb' (a + c) d = v.extractLsb' (a + c) d := by
      rw [← extractLsb'_extractLsb' u a _ c d hcd, h, extractLsb'_extractLsb' v a _ c d hcd]
    exact ⟨hsub 0 m (by omega), hsub m n (by omega)⟩
  · rintro ⟨hlow, hhigh⟩
    apply BitVec.eq_of_getLsbD_eq
    intro i hi
    by_cases him : i < m
    · simpa [him, hi] using congrArg (·.getLsbD i) hlow
    · have hin : i - m < n := by omega
      simpa [hi, hin, show a + m + (i - m) = a + i by omega] using congrArg (·.getLsbD (i - m)) hhigh

/-- Two ports agree on `n` fields of width `m` in a row exactly when they agree on each. -/
theorem extractLsb'_mul_eq_iff (a m n : Nat) :
    u.extractLsb' a (m * n) = v.extractLsb' a (m * n) ↔
      ∀ k, k < n → u.extractLsb' (a + m * k) m = v.extractLsb' (a + m * k) m := by
  induction n with
  | zero => simp [BitVec.of_length_zero]
  | succ n ih => rw [Nat.mul_succ, extractLsb'_add_eq_iff, ih, Nat.forall_lt_succ_right]

end ports

/-- An image is its eight words before the buffer and its 64 buffer bytes (43_context.md R181). -/
theorem image_eq_iff (u v : BitVec 768) :
    u = v ↔ u.extractLsb' 0 256 = v.extractLsb' 0 256 ∧ ∀ k, k < 64 → ctxByte u k = ctxByte v k := by
  simp only [ctxByte_eq]
  rw [← extractLsb'_mul_eq_iff, ← extractLsb'_add_eq_iff u v 0 256 512, BitVec.extractLsb'_eq_self,
    BitVec.extractLsb'_eq_self]

theorem ctxHash_eq_iff (u v : BitVec 768) : ctxHash u = ctxHash v ↔ u.extractLsb' 0 160 = v.extractLsb' 0 160 := by
  rw [extractLsb'_mul_eq_iff u v 0 32 5]
  constructor
  · intro h k hk
    simpa only [ctxHash_word, Nat.zero_add] using congrArg (·.word ⟨k, hk⟩) h
  · intro h
    exact HashState.ext (h 0 (by decide)) (h 1 (by decide)) (h 2 (by decide)) (h 3 (by decide)) (h 4 (by decide))

/-- The words before the buffer are H, LEN, N and the reserved field (43_context.md R181). -/
theorem imageHead_eq_iff (u v : BitVec 768) :
    u.extractLsb' 0 256 = v.extractLsb' 0 256 ↔
      ctxHash u = ctxHash v ∧ ctxLen u = ctxLen v ∧ ctxFill u = ctxFill v ∧ ctxReserved u = ctxReserved v := by
  rw [ctxHash_eq_iff, ctxLen_eq, ctxLen_eq, ctxFill_eq, ctxFill_eq, ctxReserved_eq, ctxReserved_eq,
    extractLsb'_add_eq_iff u v 0 160 96, extractLsb'_add_eq_iff u v 160 64 32, extractLsb'_add_eq_iff u v 224 6 26]

theorem ctxValid_iff (v : BitVec 768) :
    ctxValid v = true ↔ ctxReserved v = 0 ∧ ctxFill v = (ctxLen v).extractLsb' 0 6 := by
  simp only [ctxValid, Bool.and_eq_true, beq_iff_eq]

theorem ctxPending_congr {u v : BitVec 768} (hfill : ctxFill u = ctxFill v)
    (hbytes : ∀ k, k < (ctxFill u).toNat → ctxByte u k = ctxByte v k) : ctxPending u = ctxPending v := by
  apply List.ext_getElem?
  intro k
  rw [getElem?_ctxPending, getElem?_ctxPending, ← hfill]
  split
  case isTrue hk => rw [hbytes k hk]
  case isFalse => rfl

end Sys2Proof.Machine
end

section
/-! What `ctx_out` shows, field by field (43_context.md R181, R182). -/

namespace Sys2Proof.Machine

section fields

variable (s : State)

@[simp] theorem State.ctxHash_ctxOut : ctxHash s.ctxOut = s.h := by
  have hword (i : Fin 5) : (ctxHash s.ctxOut).word i = s.h.word i := by rw [ctxHash_word, State.ctxOut_hashWord]
  exact HashState.ext (hword 0) (hword 1) (hword 2) (hword 3) (hword 4)

theorem State.ctxWord_ctxOut (w : Nat) : ctxWord s.ctxOut w = s.contextImage.getD w 0 := State.ctxOut_word s w

@[simp] theorem State.ctxLen_ctxOut : ctxLen s.ctxOut = s.len := by
  have hlow : ctxWord s.ctxOut 5 = s.len.extractLsb' 0 32 := State.ctxWord_ctxOut s 5
  have hhigh : ctxWord s.ctxOut 6 = s.len.extractLsb' 32 32 := State.ctxWord_ctxOut s 6
  have hjoin := BitVec.extractLsb'_append_extractLsb'_eq_extractLsb' (x := s.len) (start₁ := 0) (len₁ := 32)
    (start₂ := 32) (len₂ := 32) rfl
  rw [ctxLen, hlow, hhigh, hjoin, BitVec.extractLsb'_eq_self]

/-- Word 7 is N with zeros above it. -/
theorem State.ctxWord_ctxOut_fill : ctxWord s.ctxOut 7 = s.n.setWidth 32 := by
  have hword : ctxWord s.ctxOut 7 = BitVec.ofNat 32 s.pending.length := State.ctxWord_ctxOut s 7
  rw [hword, State.pending_length]
  exact BitVec.ofNat_toNat 32 s.n

@[simp] theorem State.ctxFill_ctxOut : ctxFill s.ctxOut = s.n := by
  rw [ctxFill, State.ctxWord_ctxOut_fill]
  ext i hi
  simp [hi, show i < 32 by omega]

@[simp] theorem State.ctxReserved_ctxOut : ctxReserved s.ctxOut = 0 := by
  rw [ctxReserved, State.ctxWord_ctxOut_fill]
  ext i hi
  simp

/-- The buffer words are words 8..23. -/
theorem State.ctxWord_ctxOut_buffer {i : Nat} (hi : i < 16) : ctxWord s.ctxOut (8 + i) = imageBufWord s.pending i := by
  rw [State.ctxWord_ctxOut, State.contextImage, image, List.getD_append_right _ _ _ _ (by simp)]
  simp [hi]

/-- Buffer byte k is PB[k], and 0x00 beyond the Pending Buffer. -/
theorem State.ctxByte_ctxOut {k : Nat} (hk : k < 64) : ctxByte s.ctxOut k = s.pending.getD k 0 := by
  rw [ctxByte, State.ctxWord_ctxOut_buffer s (by omega), byteOf_imageBufWord _ _ _ (by omega), imageByte, Nat.div_add_mod]

@[simp] theorem State.ctxPending_ctxOut : ctxPending s.ctxOut = s.pending := by
  apply List.ext_getElem?
  intro k
  rw [getElem?_ctxPending, State.ctxFill_ctxOut, ← State.pending_length]
  split
  case isTrue hk =>
    have hk64 : k < 64 := hk.trans (by rw [State.pending_length]; exact s.n.isLt)
    rw [State.ctxByte_ctxOut s hk64, List.getD_eq_getElem _ 0 hk, List.getElem?_eq_getElem hk]
  case isFalse hk => rw [List.getElem?_eq_none (by omega)]

/-- The engine's own image is valid exactly when N = LEN mod 64 (43_context.md R185). -/
theorem State.ctxValid_ctxOut_iff : ctxValid s.ctxOut = true ↔ s.n = s.len.extractLsb' 0 6 := by
  simp [ctxValid_iff]

end fields

/-- BUF holds the Pending Buffer and nothing else, so the Pending Buffer determines it (10_state.md R23). -/
theorem State.buf_eq_of_pending_eq {s t : State} (hs : s.BufferIsPending) (ht : t.BufferIsPending) (h : s.pending = t.pending) :
    s.buf = t.buf := by
  obtain ⟨hsbuf, -⟩ := State.holds_pending hs
  obtain ⟨htbuf, -⟩ := State.holds_pending ht
  rw [hsbuf, htbuf, h]

/-- Settles O34. -/
theorem contextPortShowsTheHashingState : Obligations.ContextPortShowsTheHashingState := by
  unfold Obligations.ContextPortShowsTheHashingState
  intro s hpending
  refine ⟨State.ctxOut_hashWord s, State.ctxOut_word s 5, State.ctxOut_word s 6, ?_, ?_, fun k hk => ?_⟩
  · rw [← ctxFill_eq, State.ctxFill_ctxOut]
  · rw [← ctxReserved_eq, State.ctxReserved_ctxOut]
  · rw [← ctxByte_eq, State.ctxByte_ctxOut s hk]
    split
    case isTrue => exact State.pending_getD hpending k
    case isFalse hkn => exact List.getD_eq_default _ _ (by rw [State.pending_length]; omega)

/-- Settles O35: every part of the hashing state can be read off the image. -/
theorem contextPortIsInjectiveInTheHashingState : Obligations.ContextPortIsInjectiveInTheHashingState := by
  unfold Obligations.ContextPortIsInjectiveInTheHashingState
  intro s t hs ht
  constructor
  · intro h
    have hh : s.h = t.h := by rw [← s.ctxHash_ctxOut, h, t.ctxHash_ctxOut]
    have hn : s.n = t.n := by rw [← s.ctxFill_ctxOut, h, t.ctxFill_ctxOut]
    have hpending : s.pending = t.pending := by rw [← s.ctxPending_ctxOut, h, t.ctxPending_ctxOut]
    have hlen : s.len = t.len := by rw [← s.ctxLen_ctxOut, h, t.ctxLen_ctxOut]
    exact ⟨hh, hn, State.buf_eq_of_pending_eq hs ht hpending, hlen⟩
  · rintro ⟨hh, hn, hbuf, hlen⟩
    exact State.ctxOut_congr hh hn hbuf hlen

end Sys2Proof.Machine
end

section
/-! CTXLOAD (43_context.md R184 to R189): the whole state it leaves, what it ignores of the image, and the engine's own image. -/

namespace Sys2Proof.Machine

/-- Settles O32. -/
theorem ctxloadReplacesTheHashingState : Obligations.CtxloadReplacesTheHashingState := by
  unfold Obligations.CtxloadReplacesTheHashingState
  intro s herr hreserved hfill
  generalize hctx : s.pins.ctxIn = v at hreserved hfill ⊢
  have hlow : (ctxLen v).extractLsb' 0 6 = v.extractLsb' 160 6 := by
    rw [ctxLen_eq, extractLsb'_extractLsb' v 160 64 0 6 (by omega)]
  have hvalid : ctxValid v = true := by
    rw [ctxValid_iff, ctxReserved_eq, ctxFill_eq, hlow]
    exact ⟨hreserved, hfill⟩
  refine ⟨(s.loadImage v).buf, ?_, fun k => ?_⟩
  · rw [exec_ctxload_valid herr (by rw [hctx]; exact hvalid), hctx, State.loadImage_buf, ← ctxFill_eq, ← ctxLen_eq]
    rfl
  · rw [(State.loadImage_holds v s).read, getElem?_ctxPending, ctxFill_eq, ctxByte_eq]

/-- Bytes of the image beyond N' are not looked at (43_context.md R186). -/
theorem loadContext_driveCtx {u v : BitVec 768} (hhead : v.extractLsb' 0 256 = u.extractLsb' 0 256)
    (hbytes : ∀ k, k < (ctxFill v).toNat → ctxByte v k = ctxByte u k) (s : State) :
    (s.driveCtx v).loadContext v = (s.loadContext u).driveCtx v := by
  obtain ⟨hh, hlen, hfill, hreserved⟩ := (imageHead_eq_iff v u).1 hhead
  have hvalid : ctxValid v = ctxValid u := by rw [ctxValid, hreserved, hfill, hlen, ctxValid]
  have hpending : ctxPending v = ctxPending u := ctxPending_congr hfill hbytes
  rw [State.loadContext, State.loadContext, hvalid]
  split
  case isTrue =>
    rw [State.loadImage, State.loadImage, hh, hfill, hpending, hlen]
    rfl
  case isFalse => rfl

/-- CTXLOAD that does not end in a fault has loaded a valid image. -/
theorem exec_ctxload_of_live {s t : State} (herr : s.err = false) (h : exec .ctxload s = .next t) (hlive : t.err = false) :
    ctxValid s.pins.ctxIn = true ∧ t = s.loadImage s.pins.ctxIn := by
  cases hvalid : ctxValid s.pins.ctxIn with
  | true =>
    rw [exec_ctxload_valid herr hvalid] at h
    exact ⟨rfl, (Host.Outcome.next.inj h).symm⟩
  | false =>
    rw [exec_ctxload_invalid herr hvalid] at h
    obtain rfl := Host.Outcome.next.inj h
    simp at hlive

/-- After a load the words of `ctx_out` before the buffer are those of the image. -/
theorem loadImage_ctxOut_head {v : BitVec 768} (hvalid : ctxValid v = true) (s : State) :
    (s.loadImage v).ctxOut.extractLsb' 0 256 = v.extractLsb' 0 256 := by
  obtain ⟨hreserved, -⟩ := (ctxValid_iff v).1 hvalid
  rw [imageHead_eq_iff, hreserved]
  simp

/-- After a load the buffer bytes of `ctx_out` are those of the image below N', and 0x00 from N' on (43_context.md R186). -/
theorem loadImage_ctxOut_byte (v : BitVec 768) (s : State) {k : Nat} (hk : k < 64) :
    ctxByte (s.loadImage v).ctxOut k = if k < (ctxFill v).toNat then ctxByte v k else 0 := by
  rw [State.ctxByte_ctxOut _ hk, (State.loadImage_holds v s).pending, List.getD_eq_getElem?_getD, getElem?_ctxPending]
  split <;> rfl

/-- The image reads back as it was exactly when its unused bytes are zero (43_context.md R186). -/
theorem loadImage_ctxOut_eq_iff {v : BitVec 768} (hvalid : ctxValid v = true) (s : State) :
    (s.loadImage v).ctxOut = v ↔ ∀ k, (ctxFill v).toNat ≤ k → k < 64 → ctxByte v k = 0 := by
  rw [image_eq_iff]
  constructor
  · rintro ⟨-, hbytes⟩ k hkn hk
    rw [← hbytes k hk, loadImage_ctxOut_byte v s hk, if_neg (by omega)]
  · intro hzero
    refine ⟨loadImage_ctxOut_head hvalid s, fun k hk => ?_⟩
    rw [loadImage_ctxOut_byte v s hk]
    split
    case isTrue => rfl
    case isFalse hkn => exact (hzero k (by omega) hk).symm

/-- Settles O36. -/
theorem loadedImageReadsBackWithUnusedBytesCleared : Obligations.LoadedImageReadsBackWithUnusedBytesCleared := by
  unfold Obligations.LoadedImageReadsBackWithUnusedBytesCleared
  refine ⟨fun s v hhead hbytes => ?_, fun s t herr hexec hlive => ?_⟩
  · simp only [← ctxByte_eq, ← ctxFill_eq] at hbytes
    cases herr : s.err with
    | true => rw [exec_of_err herr, exec_of_err (by rw [State.driveCtx_err, herr]), afterNext]
    | false =>
      rw [exec, execCtxload, whenLive_ok (by rw [State.driveCtx_err, herr]), State.driveCtx_pins,
        loadContext_driveCtx hhead hbytes, exec, execCtxload, whenLive_ok herr, afterNext]
  · obtain ⟨hvalid, rfl⟩ := exec_ctxload_of_live herr hexec hlive
    simp only [← ctxByte_eq, State.loadImage_n]
    exact ⟨loadImage_ctxOut_head hvalid s, fun k hk => loadImage_ctxOut_byte _ s hk, loadImage_ctxOut_eq_iff hvalid s⟩

/-- Loading the image of a state replaces the hashing state by that state's and clears FIN (43_context.md R184, R187). -/
theorem loadImage_ctxOut {src : State} (h : src.BufferIsPending) (dst : State) :
    dst.loadImage src.ctxOut = { dst with h := src.h, n := src.n, buf := src.buf, len := src.len, fin := false } := by
  obtain ⟨hbuf, -⟩ := State.holds_pending h
  rw [State.loadImage, State.ctxHash_ctxOut, State.ctxFill_ctxOut, State.ctxPending_ctxOut, State.ctxLen_ctxOut, bufWrite_nil,
    ← hbuf]

/-- CTXLOAD of the engine's own image clears FIN and changes nothing else, where the image is valid. -/
theorem exec_ctxload_own {s : State} (hpending : s.BufferIsPending) (herr : s.err = false) (hctx : s.pins.ctxIn = s.ctxOut)
    (hfill : s.n = s.len.extractLsb' 0 6) : exec .ctxload s = .next { s with fin := false } := by
  rw [exec_ctxload_valid herr (by rw [hctx]; exact s.ctxValid_ctxOut_iff.2 hfill), hctx, loadImage_ctxOut hpending]

/-- Settles O37. -/
theorem loadingTheOwnImageChangesNothing : Obligations.LoadingTheOwnImageChangesNothing := by
  unfold Obligations.LoadingTheOwnImageChangesNothing
  intro s hinv herr hfin hctx
  obtain ⟨hfill, -⟩ := hinv.fill
  rw [exec_ctxload_own hinv.pendingOnly herr hctx (hfill hfin), ← hfin]

/-- Settles O38: in FINALIZED N = 0, so the image is valid exactly when LEN mod 64 = 0. -/
theorem finalizedImageIsLoadableOnlyAtBlockMultiples : Obligations.FinalizedImageIsLoadableOnlyAtBlockMultiples := by
  unfold Obligations.FinalizedImageIsLoadableOnlyAtBlockMultiples
  intro s hinv herr hfin hctx
  obtain ⟨-, hfinal⟩ := hinv.fill
  have hmultiple : s.n = s.len.extractLsb' 0 6 ↔ s.len.toNat % 64 = 0 := by
    rw [hfinal hfin, ← BitVec.toNat_inj, BitVec.extractLsb'_toNat, Nat.shiftRight_zero]
    exact eq_comm
  refine ⟨fun hlen => exec_ctxload_own hinv.pendingOnly herr hctx (hmultiple.2 hlen), fun hlen => ?_⟩
  have hinvalid : ctxValid s.pins.ctxIn = false := by
    rw [hctx, ← Bool.not_eq_true, State.ctxValid_ctxOut_iff, hmultiple]
    exact hlen
  exact ⟨_, exec_ctxload_invalid herr hinvalid, s.raiseFault_err _, s.raiseFault_errCode _, by simp [State.dvalid],
    s.raiseFault_h _, s.raiseFault_n _, s.raiseFault_buf _, s.raiseFault_len _, s.raiseFault_fin _⟩

end Sys2Proof.Machine
end

section
/-! Two engines with the same hashing state (43_context.md R187, R190): every command but CTXLOAD keeps them the same, whatever
their digest latches hold, and FINAL and FINALR make the latches the same too. -/

namespace Sys2Proof.Machine

/-- A command that passes its checks has its effect. -/
theorem exec_of_executes {s : State} {i : Instr} (runs : s.Executes i) : exec i s = .next (s.effect i) := by
  cases i with
  | init => exact exec_init runs.live
  | push b => exact exec_push runs.live (runs.active rfl) b
  | final => exact exec_final runs.live (runs.active rfl)
  | finalr => exact exec_finalr runs.live (runs.active rfl)
  | ctxload => exact exec_ctxload_valid runs.live (runs.valid rfl)

/-- The two states have the same H, N, BUF and LEN, and the same FIN and ERR, which decide what a command does to them. -/
structure State.SameStream (s t : State) : Prop where
  h : t.h = s.h
  n : t.n = s.n
  buf : t.buf = s.buf
  len : t.len = s.len
  fin : t.fin = s.fin
  err : t.err = s.err

namespace State.SameStream

variable {s t : State}

theorem emit (same : s.SameStream t) (b : Byte) : (s.emit b).SameStream (t.emit b) := by
  obtain ⟨hh, hn, hbuf, hlen, hfin, herr⟩ := same
  by_cases h63 : s.n = 63
  · have hs : s.emit b = (s.storeByte b).completeBlock.emptyBuffer := if_pos h63
    have ht : t.emit b = (t.storeByte b).completeBlock.emptyBuffer := if_pos (hn.trans h63)
    rw [hs, ht]
    constructor <;> simp [*]
  · have hs : s.emit b = (s.storeByte b).countByte := if_neg h63
    have ht : t.emit b = (t.storeByte b).countByte := if_neg (hn ▸ h63)
    rw [hs, ht]
    constructor <;> simp [*]

theorem emitAll (same : s.SameStream t) (bs : List Byte) : (State.emitAll bs s).SameStream (State.emitAll bs t) := by
  induction bs generalizing s t with
  | nil => exact same
  | cons b bs ih => exact ih (same.emit b)

theorem absorb (same : s.SameStream t) (b : Byte) : (s.absorb b).SameStream (t.absorb b) := by
  obtain ⟨hh, hn, hbuf, -, hfin, herr⟩ := same.emit b
  rw [State.absorb_eq_emit, State.absorb_eq_emit, same.len]
  exact ⟨hh, hn, hbuf, rfl, hfin, herr⟩

theorem latch (same : s.SameStream t) : s.latch.SameStream t.latch := by
  obtain ⟨hh, hn, hbuf, hlen, hfin, herr⟩ := same
  constructor <;> simp [*]

theorem finish (same : s.SameStream t) : s.finish.SameStream t.finish := by
  rw [State.finish_eq_latch, State.finish_eq_latch, same.n, same.len]
  exact (same.emitAll _).latch

theorem reinit (same : s.SameStream t) : s.reinit.SameStream t.reinit := by
  constructor <;> simp [same.fin, same.err]

theorem setFin (same : s.SameStream t) (fin : Bool) : (s.setFin fin).SameStream (t.setFin fin) := by
  obtain ⟨hh, hn, hbuf, hlen, -, herr⟩ := same
  constructor <;> simp [*]

theorem raiseFault (same : s.SameStream t) (c : ErrCode) : (s.raiseFault c).SameStream (t.raiseFault c) := by
  obtain ⟨hh, hn, hbuf, hlen, hfin, -⟩ := same
  constructor <;> simp [*]

/-- CTXLOAD is left out: it reads `ctx_in`, which the two may not share. -/
theorem effect (same : s.SameStream t) {i : Instr} (hi : i ≠ .ctxload) : (s.effect i).SameStream (t.effect i) := by
  cases i with
  | init => exact same.reinit.setFin false
  | push b => exact same.absorb b
  | final => exact same.finish.setFin true
  | finalr => exact same.finish.reinit
  | ctxload => exact absurd rfl hi

/-- Both latch the digest of the same stream, or both keep their own. -/
theorem effect_digest (same : s.SameStream t) (i : Instr)
    (h : t.digest = s.digest ∨ i = .final ∨ i = .finalr) : (t.effect i).digest = (s.effect i).digest := by
  have hlatched : t.finish.digest = s.finish.digest := by rw [State.finish_digest, State.finish_digest, same.finish.h]
  cases i with
  | init => simpa [State.effect] using h
  | push b => simpa [State.effect] using h
  | final => simpa only [State.effect, State.setFin_digest] using hlatched
  | finalr => simpa only [State.effect, State.reinit_digest] using hlatched
  | ctxload => simpa [State.effect] using h

end State.SameStream

/-- `t` has the same stream as `s`, and a fault they both took has hidden both digests. -/
structure State.Follows (t s : State) : Prop extends s.SameStream t where
  digest_of_err : s.err = true → t.digest = s.digest

/-- One command keeps two such engines together, and FINAL and FINALR give them one digest (43_context.md R187). -/
theorem State.Follows.after_exec {s t : State} (follows : t.Follows s) {i : Instr} (hi : i ≠ .ctxload) :
    ∃ s' t', exec i s = .next s' ∧ exec i t = .next t' ∧ t'.Follows s' ∧
      (t.digest = s.digest ∨ i = .final ∨ i = .finalr → t'.digest = s'.digest) := by
  have same := follows.toSameStream
  cases herr : s.err with
  | true =>
    exact ⟨s, t, exec_of_err herr i, exec_of_err (same.err.trans herr) i, follows, fun _ => follows.digest_of_err herr⟩
  | false =>
    by_cases hmisuse : needsActive i = true ∧ s.fin = true
    · obtain ⟨hneeds, hfin⟩ := hmisuse
      have hdigest : (t.raiseFault .useAfterFinal).digest = (s.raiseFault .useAfterFinal).digest := by simp
      exact ⟨_, _, exec_of_misuse herr hfin hneeds, exec_of_misuse (same.err.trans herr) (same.fin.trans hfin) hneeds,
        ⟨same.raiseFault _, fun _ => hdigest⟩, fun _ => hdigest⟩
    · have runs : s.Executes i := ⟨herr, fun hneeds => by simpa [hneeds] using hmisuse, fun h => absurd h hi⟩
      have runs' : t.Executes i :=
        ⟨same.err.trans herr, fun hneeds => same.fin.trans (runs.active hneeds), fun h => absurd h hi⟩
      exact ⟨_, _, exec_of_executes runs, exec_of_executes runs', ⟨same.effect hi, by simp [herr]⟩, same.effect_digest i⟩

/-- The same for a command sequence: once their digests are the same they stay the same. -/
theorem State.Follows.after_execAll {is : List Instr} (his : .ctxload ∉ is) {s t : State} (follows : t.Follows s) :
    ∃ s' t', execAll is s = .next s' ∧ execAll is t = .next t' ∧ t'.Follows s' ∧
      (t.digest = s.digest ∨ .final ∈ is ∨ .finalr ∈ is → t'.digest = s'.digest) := by
  induction is generalizing s t with
  | nil => exact ⟨s, t, execAll_nil s, execAll_nil t, follows, by simp⟩
  | cons i is ih =>
    obtain ⟨hi, his⟩ := List.ne_and_not_mem_of_not_mem_cons his
    obtain ⟨u, v, hs, ht, follows', hdigest⟩ := follows.after_exec (Ne.symm hi)
    obtain ⟨s', t', hs', ht', follows'', hdigest'⟩ := ih his follows'
    refine ⟨s', t', by rw [execAll_cons _ hs, hs'], by rw [execAll_cons _ ht, ht'], follows'', fun h => hdigest' ?_⟩
    simp only [List.mem_cons] at h
    rcases h with h | (rfl | h) | (rfl | h)
    · exact .inl (hdigest (.inl h))
    · exact .inl (hdigest (.inr (.inl rfl)))
    · exact .inr (.inl h)
    · exact .inl (hdigest (.inr (.inr rfl)))
    · exact .inr (.inr h)

/-- A clone has the source's hashing state and the destination's digest latch (43_context.md R187). -/
theorem cloneInto_follows {src dst : State} (hpending : src.BufferIsPending) (hfill : src.FillMatchesLen)
    (herr : src.err = false) (hfin : src.fin = false) (hdst : dst.err = false) :
    ∃ t, cloneInto dst src = .next t ∧ t.Follows src ∧ t.digest = dst.digest := by
  have hvalid : ctxValid src.ctxOut = true := src.ctxValid_ctxOut_iff.2 (hfill.1 hfin)
  have hload : cloneInto dst src = .next ((dst.driveCtx src.ctxOut).loadImage src.ctxOut) := by
    rw [cloneInto, exec_ctxload_valid (by rw [State.driveCtx_err, hdst]) (by rw [State.driveCtx_pins]; exact hvalid),
      State.driveCtx_pins]
  refine ⟨_, hload, ⟨?_, by simp [herr]⟩, by simp⟩
  rw [loadImage_ctxOut hpending]
  constructor <;> simp [*]

/-- Settles O39. -/
theorem cloneBehavesAsItsSource : Obligations.CloneBehavesAsItsSource := by
  unfold Obligations.CloneBehavesAsItsSource
  intro src dst hinv herr hfin hdst
  obtain ⟨t, hclone, follows, hdigest⟩ := cloneInto_follows hinv.pendingOnly hinv.fill herr hfin hdst
  refine ⟨t, hclone, follows.h, follows.n, follows.buf, follows.len, follows.fin.trans hfin, follows.err.trans herr, hdigest,
    fun is his => ?_⟩
  obtain ⟨s', t', hs, ht, follows', hlatched⟩ := follows.after_execAll his
  exact ⟨s', t', hs, ht, follows'.h, follows'.n, follows'.buf, follows'.len, follows'.fin, follows'.err,
    fun h => hlatched (.inr h)⟩

end Sys2Proof.Machine
end

section
/-! Two continuations of one saved stream (43_context.md R190). -/

namespace Sys2Proof.Machine

theorem State.absorbAll_append (bs cs : List Byte) (s : State) : (s.absorbAll bs).absorbAll cs = s.absorbAll (bs ++ cs) := by
  induction bs generalizing s with
  | nil => rfl
  | cons b bs ih => exact ih (s.absorb b)

theorem State.absorbAll_fillMatchesLen (bs : List Byte) {s : State} (h : s.FillMatchesLen) (hfin : s.fin = false) :
    (s.absorbAll bs).FillMatchesLen := by
  induction bs generalizing s with
  | nil => exact h
  | cons b bs ih => exact ih (State.absorb_fillMatchesLen h hfin b) (by rw [State.absorb_fin, hfin])

/-- A stream absorbed from the initial hashing state can be saved and loaded (43_context.md R185). -/
theorem State.InitialHashing.absorbAll_loadable {s : State} (h : s.InitialHashing) (hfin : s.fin = false) (p : List Byte) :
    (s.absorbAll p).BufferIsPending ∧ (s.absorbAll p).FillMatchesLen := by
  obtain ⟨-, hn, hbuf, hlen⟩ := h
  have hfill : s.FillMatchesLen := by simp [State.FillMatchesLen, hn, hlen]
  exact ⟨(State.absorbAll_holds (State.holds_nil hbuf hn) p).bufferIsPending, State.absorbAll_fillMatchesLen p hfill hfin⟩

/-- After INPUT P, INPUT C; FINAL latches the digest of P ++ C (42_finalization.md R171). -/
theorem State.InitialHashing.execAll_continuation {s : State} (h : s.InitialHashing) (herr : s.err = false)
    (hfin : s.fin = false) (p c : List Byte) :
    ∃ t, execAll (inputCmds c ++ [.final]) (s.absorbAll p) = .next t ∧ t.err = false ∧ t.digest = some (rmd160 (p ++ c)) := by
  refine ⟨_, execAll_input_final (by simp [herr]) (by simp [hfin]) c, by simp [herr], ?_⟩
  rw [State.setFin_digest, State.absorbAll_append, h.finish_absorbAll_digest]

theorem ctxload_not_mem_input_final (c : List Byte) : .ctxload ∉ inputCmds c ++ [.final] := by
  simp [inputCmds]

/-- Settles O46: the second continuation runs on a clone of the saved state. -/
theorem forkedStreamsYieldTheirOwnDigests : Obligations.ForkedStreamsYieldTheirOwnDigests := by
  unfold Obligations.ForkedStreamsYieldTheirOwnDigests
  intro s p c₁ c₂ herr
  have hinit : (s.reinit.setFin false).InitialHashing := s.reinit_setFin_initialHashing false
  generalize hfresh : s.reinit.setFin false = fresh at hinit
  have herr' : fresh.err = false := by simp [← hfresh, herr]
  have hfin : fresh.fin = false := by simp [← hfresh]
  obtain ⟨hpending, hfill⟩ := hinit.absorbAll_loadable hfin p
  obtain ⟨t₁, hrun₁, hlive₁, hdigest₁⟩ := hinit.execAll_continuation herr' hfin p c₁
  obtain ⟨t, hclone, follows, -⟩ := cloneInto_follows hpending hfill (by simp [herr']) (by simp [hfin]) hlive₁
  obtain ⟨s₂, hrun₂, -, hdigest₂⟩ := hinit.execAll_continuation herr' hfin p c₂
  obtain ⟨s₂', t₂, hs₂, ht₂, -, hlatched⟩ := follows.after_execAll (ctxload_not_mem_input_final c₂)
  obtain rfl : s₂ = s₂' := Host.Outcome.next.inj (hrun₂.symm.trans hs₂)
  refine ⟨fresh.absorbAll p, t₁, t₂, ?_, hrun₁, hdigest₁, ?_, ?_⟩
  · rw [execAll_cons _ (exec_init herr), hfresh, execAll_inputCmds p herr' hfin]
  · rw [execAll_cons _ hclone, ht₂]
  · rw [hlatched (by simp), hdigest₂]

end Sys2Proof.Machine
end

section
/-! Faults and the FAULT state (60_exceptions.md R200 to R211): which check of a command fails and what the fault leaves, the
order of the checks at the step, and the way out of FAULT. -/

namespace Sys2Proof.Machine

@[simp] theorem State.nextPins_dvalid (s : State) : s.nextPins.dvalid = s.dvalid := by simp [State.dvalid]

@[simp] theorem State.nextPins_ctxOut (s : State) : s.nextPins.ctxOut = s.ctxOut :=
  State.ctxOut_congr (by simp) (by simp) (by simp) (by simp)

@[simp] theorem State.raiseFault_dvalid (s : State) (c : ErrCode) : (s.raiseFault c).dvalid = false := by simp [State.dvalid]

@[simp] theorem State.raiseFault_ctxOut (s : State) (c : ErrCode) : (s.raiseFault c).ctxOut = s.ctxOut :=
  State.ctxOut_congr (by simp) (by simp) (by simp) (by simp)

@[simp] theorem State.rstTransition_dvalid (s : State) : s.rstTransition.dvalid = false := by simp [State.dvalid]

/-- The outcomes of a command, each with the check that decides it (41_buffer_commands.md R140, 60_exceptions.md R202, R205,
R207). Unlike `Answers` it says which command raises which fault. -/
inductive Checked (i : Instr) (s : State) : State → Prop
  | ignored (err : s.err = true) : Checked i s s
  | misused (live : s.err = false) (fin : s.fin = true) (needs : needsActive i = true) :
      Checked i s (s.raiseFault .useAfterFinal)
  | badImage (live : s.err = false) (load : i = .ctxload) (invalid : ctxValid s.pins.ctxIn = false) :
      Checked i s (s.raiseFault .badContext)
  | executed (runs : s.Executes i) : Checked i s (s.effect i)

theorem exec_checked {i : Instr} {s t : State} (h : exec i s = .next t) : Checked i s t := by
  have answer {u : State} (hu : exec i s = .next u) (checked : Checked i s u) : Checked i s t := by
    obtain rfl := Host.Outcome.next.inj (hu.symm.trans h)
    exact checked
  cases herr : s.err with
  | true => exact answer (exec_of_err herr i) (.ignored herr)
  | false =>
    by_cases hmisuse : s.fin = true ∧ needsActive i = true
    · obtain ⟨hfin, hi⟩ := hmisuse
      exact answer (exec_of_misuse herr hfin hi) (.misused herr hfin hi)
    by_cases hbad : i = .ctxload ∧ ctxValid s.pins.ctxIn = false
    · obtain ⟨rfl, hinvalid⟩ := hbad
      exact answer (exec_ctxload_invalid herr hinvalid) (.badImage herr rfl hinvalid)
    have runs : s.Executes i :=
      { live := herr
        active := fun hi => eq_false_of_ne_true fun hfin => hmisuse ⟨hfin, hi⟩
        valid := fun hi => eq_true_of_ne_false fun hinvalid => hbad ⟨hi, hinvalid⟩ }
    exact answer (exec_of_executes runs) (.executed runs)

/-- The words that match no row are the reserved ones (30_encoding.md R84). -/
theorem legalWord_eq_false_iff (w : CmdWord) : legalWord w = false ↔ ∃ r, decode w = .reserved r := by
  rw [← Bool.not_eq_true, legalWord_iff]
  refine ⟨fun h => decode_reserved_of_ne_encode fun i hw => h ⟨i, hw⟩, ?_⟩
  rintro ⟨r, hdec⟩ ⟨i, rfl⟩
  cases (decode_encode i).symm.trans hdec

theorem legalWord_encode (i : Instr) : legalWord (encode i) = true := (legalWord_iff _).2 ⟨i, rfl⟩

/-- The commands that need FIN = 0 are those of opcodes 2, 3 and 4 (60_exceptions.md R206). -/
theorem opcode_mem_iff_needsActive (i : Instr) : (encode i).toNat / 256 ∈ [2, 3, 4] ↔ needsActive i = true := by
  cases i with
  | init => decide
  | push b =>
    have hop : (encode (.push b)).toNat / 256 = 2 := by
      have hb := b.isLt
      rw [encode_push_toNat]
      omega
    simp [hop, needsActive]
  | final => decide
  | finalr => decide
  | ctxload => decide

theorem encode_eq_ctxload_iff (i : Instr) : encode i = 0x0500 ↔ i = .ctxload :=
  ⟨fun h => encode_injective (j := .ctxload) h, fun h => by rw [h]; rfl⟩

/-- The two ways an image is invalid, on the bits of the port (43_context.md R185, 60_exceptions.md R205). -/
theorem ctxValid_eq_false_iff (v : BitVec 768) :
    ctxValid v = false ↔ v.extractLsb' 230 26 ≠ 0 ∨ v.extractLsb' 224 6 ≠ v.extractLsb' 160 6 := by
  have hlow : (ctxLen v).extractLsb' 0 6 = v.extractLsb' 160 6 := by
    rw [ctxLen_eq, extractLsb'_extractLsb' v 160 64 0 6 (by omega)]
  rw [← Bool.not_eq_true, ctxValid_iff, hlow, ctxReserved_eq, ctxFill_eq, not_and_or]

/-- In FAULT every accepted word is ignored, a reserved one as well (60_exceptions.md R207). -/
theorem accept_of_err {s : State} (herr : s.err = true) (cmd : CmdWord) : accept cmd s = .next s := by
  rcases accept_cases cmd s with ⟨i, -, e⟩ | ⟨_, -, e⟩ <;> rw [e]
  · exact exec_of_err herr i
  · rw [execReserved, whenLive_err herr]

/-- In FAULT a step without `rst` only moves the input ports on. -/
theorem step_of_err {s : State} (herr : s.err = true) (hrst : s.pins.rst = false) : step s = .next s.nextPins := by
  cases hbeat : s.pins.cmdValid with
  | true => rw [step, samplePins_beat hrst hbeat, accept_of_err herr, afterNext]
  | false => rw [step, samplePins_quiet hrst hbeat, afterNext]

/-- Settles O6. -/
theorem reservedWordRaisesIllegalCommand : Obligations.ReservedWordRaisesIllegalCommand := by
  unfold Obligations.ReservedWordRaisesIllegalCommand
  intro s hrst hbeat herr hillegal
  obtain ⟨r, hdec⟩ := (legalWord_eq_false_iff _).1 hillegal
  exact ⟨_, step_of_reserved hrst hbeat hdec herr, by simp⟩

/-- Settles O10. -/
theorem faultStateIgnoresEveryCommand : Obligations.FaultStateIgnoresEveryCommand := by
  unfold Obligations.FaultStateIgnoresEveryCommand
  intro s herr
  refine ⟨exec_of_err herr, accept_of_err herr, rfl, fun hinv => ?_, fun hrst => ?_⟩
  · rw [State.dvalid, hinv.hidden herr, Option.isSome_none]
  · exact ⟨step_of_err herr hrst, s.nextPins_errCode, s.outPorts_nextPins⟩

/-- Settles O11: without `rst` the step is the one of `step_of_err`, with it the reset transition. -/
theorem onlyTheResetPinLeavesFault : Obligations.OnlyTheResetPinLeavesFault := by
  unfold Obligations.OnlyTheResetPinLeavesFault
  intro s t herr hstep
  refine ⟨fun hrst => ?_, fun hrst => ?_, exec_of_err herr .init⟩
  · obtain rfl := Host.Outcome.next.inj ((step_of_err herr hrst).symm.trans hstep)
    exact ⟨s.nextPins_err.trans herr, s.nextPins_errCode⟩
  · obtain rfl := Host.Outcome.next.inj ((step_rst hrst).symm.trans hstep)
    simp [State.InitialHashing]

/-- Settles O12: a reserved word fails before any check of a command, and a command's own checks are those of `Checked`. -/
theorem faultChecksHaveTheStatedPriority : Obligations.FaultChecksHaveTheStatedPriority := by
  unfold Obligations.FaultChecksHaveTheStatedPriority
  intro s t hrst hbeat hstep
  rcases step_cases hstep with ⟨hrst', -⟩ | ⟨-, hquiet, -⟩ | ⟨-, -, i, u, hdec, hexec, rfl⟩ | ⟨-, -, r, hdec, rfl⟩
  · simp [hrst] at hrst'
  · simp [hbeat] at hquiet
  · simp only [State.nextPins_err, State.nextPins_errCode, decode_eq_command_iff.1 hdec, legalWord_encode,
      opcode_mem_iff_needsActive, encode_eq_ctxload_iff]
    cases exec_checked hexec with
    | ignored herr => simp [herr]
    | misused live fin needs => simp [live, fin, needs]
    | badImage live load invalid => simp [live, load, needsActive, invalid]
    | executed runs =>
      obtain ⟨live, active, valid⟩ := runs
      have hactive : ¬(s.fin = true ∧ needsActive i = true) := fun ⟨hfin, hi⟩ => by simp [active hi] at hfin
      have hvalid : ¬(i = .ctxload ∧ ctxValid s.pins.ctxIn = false) := fun ⟨hi, hinvalid⟩ => by simp [valid hi] at hinvalid
      rw [if_neg hactive, if_neg hvalid, State.effect_err, State.effect_errCode, live]
      simp
  · rw [State.nextPins_err, State.nextPins_errCode, (legalWord_eq_false_iff _).2 ⟨r, hdec⟩]
    rcases whenLive_cases s (State.raiseFault .illegalCommand) with ⟨herr, e⟩ | ⟨herr, e⟩ <;>
      simp [e, herr]

/-- Settles O13: of the outcomes of a sample only `raiseFault` takes ERR from 0 to 1. -/
theorem faultsArePrecise : Obligations.FaultsArePrecise := by
  unfold Obligations.FaultsArePrecise
  intro s t hstep hlive herr
  obtain ⟨u, hsample, rfl⟩ := step_samples hstep
  rw [State.nextPins_err] at herr
  cases hsample with
  | reset => simp at herr
  | unchanged => simp [hlive] at herr
  | faulted _ _ c can => simp [can.cause]
  | executed => simp [hlive] at herr

/-- Settles O14: the hypotheses are the checks, and no command that has its effect touches ERR or ERRCODE. -/
theorem legalCommandsNeverFail : Obligations.LegalCommandsNeverFail := by
  unfold Obligations.LegalCommandsNeverFail
  intro s i herr hactive hvalid
  exact ⟨_, exec_of_executes ⟨herr, hactive, hvalid⟩, (s.effect_err i).trans herr, s.effect_errCode i⟩

/-- Settles O15. -/
theorem useAfterFinalFaults : Obligations.UseAfterFinalFaults := by
  unfold Obligations.UseAfterFinalFaults
  refine ⟨fun s i herr hfin hi => ?_, fun s t i hi hexec hcode => ?_⟩
  · have hneeds : needsActive i = true := by
      rcases hi with ⟨b, rfl⟩ | rfl | rfl <;> rfl
    exact ⟨_, exec_of_misuse herr hfin hneeds, by simp⟩
  · cases exec_checked hexec with
    | ignored => exact hcode
    | misused _ fin needs =>
      obtain rfl | rfl | hfin := hi
      · simp [needsActive] at needs
      · simp [needsActive] at needs
      · simp [fin] at hfin
    | badImage => simp at hcode
    | executed => simpa using hcode

/-- Settles O33. -/
theorem badContextIsRaisedExactlyOnAnInvalidImage : Obligations.BadContextIsRaisedExactlyOnAnInvalidImage := by
  unfold Obligations.BadContextIsRaisedExactlyOnAnInvalidImage
  simp only [← ctxValid_eq_false_iff]
  refine ⟨fun s herr hinvalid => ⟨_, exec_ctxload_invalid herr hinvalid, by simp⟩, fun s t i hexec hcode hnew => ?_⟩
  cases exec_checked hexec with
  | ignored => exact absurd hcode hnew
  | misused => simp at hcode
  | badImage _ load invalid => exact ⟨load, invalid⟩
  | executed => exact absurd (by simpa using hcode) hnew

end Sys2Proof.Machine
end

section
/-! The initial hashing state (70_reset_and_hazards.md R232): who establishes it, what it is, and how `rst` and INIT differ
(R234); every command and every step completes (R247). -/

namespace Sys2Proof.Machine

/-- The host's next sample leaves the hashing state as it is. -/
theorem State.InitialHashing.nextPins {s : State} (h : s.InitialHashing) : s.nextPins.InitialHashing :=
  h.of_eq s.nextPins_h s.nextPins_n s.nextPins_buf s.nextPins_len

theorem State.InitialHashing.pending {s : State} (h : s.InitialHashing) : s.pending = [] := by
  obtain ⟨-, hn, hbuf, -⟩ := h
  exact (State.holds_nil hbuf hn).pending

/-- Settles O8. -/
theorem initialHashingStateIsEstablished : Obligations.InitialHashingStateIsEstablished := by
  unfold Obligations.InitialHashingStateIsEstablished
  refine ⟨fun s hrst => ?reset, fun s herr => ?init, fun s herr hfin => ?finalr, fun t hinit => ?fields⟩
  case reset => exact ⟨_, step_rst hrst, s.rstTransition_initialHashing.nextPins⟩
  case init => exact ⟨_, exec_init herr, s.reinit_setFin_initialHashing false⟩
  case finalr => exact ⟨_, exec_finalr herr hfin, s.finish.reinit_initialHashing⟩
  case fields =>
    have hpending := hinit.pending
    obtain ⟨hh, hn, -, hlen⟩ := hinit
    exact ⟨by rw [hh, iv], hpending, hn, hlen⟩

/-- INIT does not touch the fault flag, the fault code and the digest latch (70_reset_and_hazards.md R234). -/
theorem exec_init_frame {s u : State} (h : exec .init s = .next u) :
    u.err = s.err ∧ u.errCode = s.errCode ∧ u.digest = s.digest := by
  cases herr : s.err with
  | true =>
    obtain rfl := Host.Outcome.next.inj ((exec_of_err herr .init).symm.trans h)
    exact ⟨herr, rfl, rfl⟩
  | false =>
    obtain rfl := Host.Outcome.next.inj ((exec_init herr).symm.trans h)
    simp [herr]

/-- DVALID is the tag of the latch (10_state.md R37). -/
theorem State.dvalid_eq_false_iff (s : State) : s.dvalid = false ↔ s.digest = none := by simp [State.dvalid]

/-- Settles O17: without a fault the invariant has ERRCODE = 0, which is what `rst` leaves. -/
theorem resetAndInitDifferOnlyInLifecycleAndOutput : Obligations.ResetAndInitDifferOnlyInLifecycleAndOutput := by
  unfold Obligations.ResetAndInitDifferOnlyInLifecycleAndOutput
  intro s t hinv hrst hstep
  obtain rfl := Host.Outcome.next.inj ((step_rst hrst).symm.trans hstep)
  refine ⟨by simp, fun u => exec_init_frame, fun herr => exec_of_err herr .init, fun herr => ⟨_, exec_init herr, ?_⟩⟩
  have hcode : s.errCode = .noFault := hinv.errCode_of_live herr
  have hlatch : s.dvalid = false → none = s.digest := fun h => (s.dvalid_eq_false_iff.1 h).symm
  simpa [herr, hcode] using hlatch

/-- Settles O9. -/
theorem everyCommandAndStepCompletes : Obligations.EveryCommandAndStepCompletes := by
  unfold Obligations.EveryCommandAndStepCompletes
  exact ⟨exec_next, step_next⟩

end Sys2Proof.Machine
end

section
/-! `ctx_in` is read by an accepted CTXLOAD only (70_reset_and_hazards.md R242): everything else a sample can do commutes with
driving the port. -/

namespace Sys2Proof.Machine

section driven

variable (s : State) (v : BitVec 768)

theorem State.driveCtx_sameStream : s.SameStream (s.driveCtx v) := by constructor <;> simp

theorem State.raiseFault_driveCtx (c : ErrCode) : (s.driveCtx v).raiseFault c = (s.raiseFault c).driveCtx v := by
  apply State.ext <;> simp

theorem State.rstTransition_driveCtx : (s.driveCtx v).rstTransition = s.rstTransition.driveCtx v := by
  apply State.ext <;> simp

@[simp] theorem State.effect_digestDraw (i : Instr) : (s.effect i).digestDraw = s.digestDraw := by
  cases i <;> simp [State.effect]

@[simp] theorem State.effect_pins (i : Instr) : (s.effect i).pins = s.pins := by
  cases i <;> simp [State.effect]

@[simp] theorem State.effect_script (i : Instr) : (s.effect i).script = s.script := by
  cases i <;> simp [State.effect]

/-- The hashing state after the effect depends on the hashing state before it only; the rest is a frame. -/
theorem State.effect_driveCtx {i : Instr} (hi : i ≠ .ctxload) : (s.driveCtx v).effect i = (s.effect i).driveCtx v := by
  obtain ⟨hh, hn, hbuf, hlen, hfin, -⟩ := (s.driveCtx_sameStream v).effect hi
  have hdigest := (s.driveCtx_sameStream v).effect_digest i (.inl (s.driveCtx_digest v))
  apply State.ext <;> simp [*]

/-- The checks of a command other than CTXLOAD do not read the port either (41_buffer_commands.md R140). -/
theorem exec_driveCtx {i : Instr} (hi : i ≠ .ctxload) :
    exec i (s.driveCtx v) = afterNext (exec i s) (State.driveCtx v) := by
  obtain ⟨t, hexec⟩ := exec_next i s
  rw [hexec, afterNext]
  cases exec_checked hexec with
  | ignored herr => exact exec_of_err ((s.driveCtx_err v).trans herr) i
  | misused live fin needs =>
    rw [exec_of_misuse ((s.driveCtx_err v).trans live) ((s.driveCtx_fin v).trans fin) needs, s.raiseFault_driveCtx]
  | badImage _ load _ => exact absurd load hi
  | executed runs =>
    have runs' : (s.driveCtx v).Executes i :=
      { live := (s.driveCtx_err v).trans runs.live
        active := fun needs => (s.driveCtx_fin v).trans (runs.active needs)
        valid := fun load => absurd load hi }
    rw [exec_of_executes runs', s.effect_driveCtx v hi]

theorem execReserved_driveCtx :
    execReserved (s.driveCtx v) = afterNext (execReserved s) (State.driveCtx v) := by
  rw [execReserved, execReserved, afterNext]
  cases herr : s.err with
  | true => rw [whenLive_err herr, whenLive_err ((s.driveCtx_err v).trans herr)]
  | false => rw [whenLive_ok herr, whenLive_ok ((s.driveCtx_err v).trans herr), s.raiseFault_driveCtx]

/-- Every word but CTXLOAD's is accepted alike, a reserved one as well. -/
theorem accept_driveCtx {w : CmdWord} (hw : w ≠ 0x0500) :
    accept w (s.driveCtx v) = afterNext (accept w s) (State.driveCtx v) := by
  cases hdec : decode w with
  | command i =>
    have hi : i ≠ .ctxload := fun load => hw (by rw [eq_encode_of_decode hdec, load]; rfl)
    rw [accept_of_command hdec, accept_of_command hdec, exec_driveCtx s v hi]
  | reserved r => rw [accept_of_reserved hdec, accept_of_reserved hdec, execReserved_driveCtx]

end driven

/-- Settles O54: a sample is the reset transition, the accepted word, or nothing. -/
theorem contextInputIsReadOnlyByCtxload : Obligations.ContextInputIsReadOnlyByCtxload := by
  unfold Obligations.ContextInputIsReadOnlyByCtxload
  refine ⟨fun s v i hi => exec_driveCtx s v hi, fun s v hunread => ?_⟩
  have hpins : (s.driveCtx v).pins = { s.pins with ctxIn := v } := s.driveCtx_pins v
  cases hrst : s.pins.rst with
  | true => rw [samplePins_rst hrst, samplePins_rst (by rw [hpins, hrst]), afterNext, s.rstTransition_driveCtx]
  | false =>
    cases hbeat : s.pins.cmdValid with
    | false => rw [samplePins_quiet hrst hbeat, samplePins_quiet (by rw [hpins, hrst]) (by rw [hpins, hbeat]), afterNext]
    | true =>
      have hcmd : s.pins.cmd ≠ 0x0500 := by simpa [hrst, hbeat] using hunread
      rw [samplePins_beat hrst hbeat, samplePins_beat (by rw [hpins, hrst]) (by rw [hpins, hbeat]), hpins,
        accept_driveCtx s v hcmd]

end Sys2Proof.Machine
end
